-- ==== Sys2Proof/Config.lean ====
section
/-!
DEFINITION. The implementation parameters of 00_scope.md R7 and R8, which this hardware fixes. Types of the
model are written with the numbers themselves (`Fin 8`, `BitVec 32`); these names are used where a rule
compares against a parameter.

`CMD_LATENCY` of R7 is OPEN: no rule reads it and a model gives a command no duration (R276, D33), so it has no
name here (log entry 9). No value of this hardware is left undefined after a command, so there is no free value.
-/

namespace Sys2Proof.Config

/-- Limb width in bits (R7). -/
abbrev W : Nat := 32

/-- Capacity: the most limbs a magnitude has (R7). -/
abbrev CAP : Nat := 8

/-- The widest magnitude in bits, `W * CAP` (R7). -/
abbrev MAGBITS : Nat := W * CAP

/-- Accumulator width, `2W` (R7, R111). -/
abbrev ACCW : Nat := 2 * W

/-- Number of value registers (R7, R30). -/
abbrev NREG : Nat := 8

/-- Command word width (R7, R82). -/
abbrev CMDW : Nat := 32

/-- Data-in operand width (R7, R86). -/
abbrev DINW : Nat := 64

/-- Result register width (R7, R38). -/
abbrev RESW : Nat := 64

/-- How many limbs a narrow target of `n` bits holds (R8). -/
abbrev limbsOf (n : Nat) : Nat := n / W

end Sys2Proof.Config
end

