-- ==== Sys2Proof/Word.lean ====
section
/-!
DEFINITION. The word types of the block (00_scope.md R7, R9).
-/

namespace Sys2Proof

/-- One limb: an unsigned 32-bit word (10_state.md R31). -/
abbrev Limb := BitVec 32

/-- The double-width accumulator of carry and borrow arithmetic (40_magnitude_engine.md R111). -/
abbrev Acc := BitVec 64

/-- A command word (30_encoding.md R82). -/
abbrev CmdWord := BitVec 32

/-- The data-in operand that goes with every command (30_encoding.md R86). -/
abbrev Din := BitVec 64

/-- A value register number, 0 to 7; none is illegal (30_encoding.md R84). -/
abbrev Reg := Fin 8

/-- A limb index `K`, 0 to 7; every one names a limb (30_encoding.md R84). -/
abbrev LimbIx := Fin 8

end Sys2Proof
end

