-- ==== Sys2Proof/Syntax.lean ====
section
/-!
DEFINITION. The commands of the BIGCORE command set, version 1 (30_encoding.md R89): one constructor per row of
opcode_table.json, in its order. An operand is a register number, a limb index, or the 64-bit `din` of the three
commands that read it (R86).
-/

namespace Sys2Proof

/-- The names of the 13 rows of R89. -/
inductive Mnemonic
  | create | toi32 | toi64 | cmp | add | sub | inc | dec | neg | mov | rdsgn | rdlen | rdlimb
deriving DecidableEq, Repr

/-- A command with its operands. -/
inductive Instr
  /-- `CREATE vd, #imm`: `din` is the signed 64-bit integer (R153). -/
  | create (rd : Reg) (din : Din)
  /-- `TOI32 vs` (R156). -/
  | toi32 (rs1 : Reg)
  /-- `TOI64 vs` (R155). -/
  | toi64 (rs1 : Reg)
  /-- `CMP vs, vt` (R170). -/
  | cmp (rs1 rs2 : Reg)
  /-- `ADD vd, vs, vt` (R181). -/
  | add (rd rs1 rs2 : Reg)
  /-- `SUB vd, vs, vt` (R184). -/
  | sub (rd rs1 rs2 : Reg)
  /-- `INC vd, #imm`: `din[31:0]` is the value, `din[63:32]` must be 0 (R201). -/
  | inc (rd : Reg) (din : Din)
  /-- `DEC vd, #imm`: `din[31:0]` is the value, `din[63:32]` must be 0 (R202). -/
  | dec (rd : Reg) (din : Din)
  /-- `NEG vd, vs` (R187). -/
  | neg (rd rs1 : Reg)
  /-- `MOV vd, vs` (R220). -/
  | mov (rd rs1 : Reg)
  /-- `RDSGN vs` (R221). -/
  | rdsgn (rs1 : Reg)
  /-- `RDLEN vs` (R222). -/
  | rdlen (rs1 : Reg)
  /-- `RDLIMB vs, #k` (R223). -/
  | rdlimb (rs1 : Reg) (k : LimbIx)
deriving DecidableEq, Repr

/-- The row of R89 a command belongs to. -/
def Instr.mnemonic : Instr → Mnemonic
  | .create _ _ => .create
  | .toi32 _ => .toi32
  | .toi64 _ => .toi64
  | .cmp _ _ => .cmp
  | .add _ _ _ => .add
  | .sub _ _ _ => .sub
  | .inc _ _ => .inc
  | .dec _ _ => .dec
  | .neg _ _ => .neg
  | .mov _ _ => .mov
  | .rdsgn _ => .rdsgn
  | .rdlen _ => .rdlen
  | .rdlimb _ _ => .rdlimb

/-- The pseudo-instruction `CLR vd`, which stands for `CREATE vd, #0` (R95). -/
def Instr.clr (rd : Reg) : Instr := .create rd 0#64

end Sys2Proof
end

