-- ==== Sys2Proof/WellFormed.lean ====
section
/-!
DEFINITION. When a command term is one the host can present legally. Register numbers and limb indexes are
bounded by their types (30_encoding.md R84), so the one check left is that of R86: INC and DEC require
`din[63:32] = 0`.
-/

namespace Sys2Proof

/-- The upper half of the operand is zero, as INC and DEC require (R86). -/
def dinFitsLimb (din : Din) : Bool := din.extractLsb' 32 32 == 0#32

/-- A command the decoder can have produced. -/
def Instr.wf : Instr → Bool
  | .create _ _ => true
  | .toi32 _ => true
  | .toi64 _ => true
  | .cmp _ _ => true
  | .add _ _ _ => true
  | .sub _ _ _ => true
  | .inc _ din => dinFitsLimb din
  | .dec _ din => dinFitsLimb din
  | .neg _ _ => true
  | .mov _ _ => true
  | .rdsgn _ => true
  | .rdlen _ => true
  | .rdlimb _ _ => true

end Sys2Proof
end

