-- ==== Sys2Proof/Decode.lean ====
section
/-!
DEFINITION. Decoding a command word and its operand (30_encoding.md R82 to R92), total and rejecting by name, and
after it the encoder (R94 to R96). The command port carries whole words, so there is no byte order (20_memory.md
R66): the decoder takes the 32-bit word and the 64-bit `din` as the host presents them.
-/

namespace Sys2Proof

/-- `cmd[31:26]`, the opcode (R82). -/
def opcOf (cmd : CmdWord) : BitVec 6 := cmd.extractLsb' 26 6

/-- A 3-bit field at bit `lo` read as an unsigned register number or limb index (R84). -/
def field3 (cmd : CmdWord) (lo : Nat) : Fin 8 := ⟨(cmd.extractLsb' lo 3).toNat, (cmd.extractLsb' lo 3).isLt⟩

/-- `cmd[25:23]` (R82). -/
def rdOf (cmd : CmdWord) : Reg := field3 cmd 23

/-- `cmd[22:20]` (R82). -/
def rs1Of (cmd : CmdWord) : Reg := field3 cmd 20

/-- `cmd[19:17]`: `RS2`, or `K` in RDLIMB (R82). -/
def rs2Of (cmd : CmdWord) : Fin 8 := field3 cmd 17

/-- `cmd[16:0]`, which must be zero (R82, R85). -/
def rsvOf (cmd : CmdWord) : BitVec 17 := cmd.extractLsb' 0 17

/-- One row of the opcode map: a word `w` matches it when `w AND mask = bits` (R89). -/
structure OpRow where
  mn : Mnemonic
  opc : BitVec 6
  bits : CmdWord
  mask : CmdWord
deriving DecidableEq, Repr

/-- The opcode map (R89). -/
def opcodeTable : List OpRow :=
  [ ⟨.create, 0x01, 0x04000000, 0xFC7FFFFF⟩,
    ⟨.toi32, 0x02, 0x08000000, 0xFF8FFFFF⟩,
    ⟨.toi64, 0x03, 0x0C000000, 0xFF8FFFFF⟩,
    ⟨.cmp, 0x04, 0x10000000, 0xFF81FFFF⟩,
    ⟨.add, 0x05, 0x14000000, 0xFC01FFFF⟩,
    ⟨.sub, 0x06, 0x18000000, 0xFC01FFFF⟩,
    ⟨.inc, 0x07, 0x1C000000, 0xFC7FFFFF⟩,
    ⟨.dec, 0x08, 0x20000000, 0xFC7FFFFF⟩,
    ⟨.neg, 0x09, 0x24000000, 0xFC0FFFFF⟩,
    ⟨.mov, 0x0A, 0x28000000, 0xFC0FFFFF⟩,
    ⟨.rdsgn, 0x0B, 0x2C000000, 0xFF8FFFFF⟩,
    ⟨.rdlen, 0x0C, 0x30000000, 0xFF8FFFFF⟩,
    ⟨.rdlimb, 0x0D, 0x34000000, 0xFF81FFFF⟩ ]

/-- The word matches the row (R89). -/
def OpRow.hits (row : OpRow) (cmd : CmdWord) : Bool := (cmd &&& row.mask) == row.bits

/-- Why a command is illegal (R90). All three raise the one fault IllegalCommand. -/
inductive DecodeReject
  /-- R90 clause 1: the opcode is not assigned. -/
  | unassignedOpcode
  /-- R90 clause 2: an assigned opcode with a nonzero reserved or unused bit. -/
  | mustBeZero
  /-- R90 clause 3: INC or DEC with `din[63:32]` not zero. -/
  | dinTooWide
deriving DecidableEq, Repr

/-- The command a row stands for, its operands taken from the word's fields and from `din` (R91). -/
def buildInstr (mn : Mnemonic) (cmd : CmdWord) (din : Din) : Instr :=
  match mn with
  | .create => .create (rdOf cmd) din
  | .toi32 => .toi32 (rs1Of cmd)
  | .toi64 => .toi64 (rs1Of cmd)
  | .cmp => .cmp (rs1Of cmd) (rs2Of cmd)
  | .add => .add (rdOf cmd) (rs1Of cmd) (rs2Of cmd)
  | .sub => .sub (rdOf cmd) (rs1Of cmd) (rs2Of cmd)
  | .inc => .inc (rdOf cmd) din
  | .dec => .dec (rdOf cmd) din
  | .neg => .neg (rdOf cmd) (rs1Of cmd)
  | .mov => .mov (rdOf cmd) (rs1Of cmd)
  | .rdsgn => .rdsgn (rs1Of cmd)
  | .rdlen => .rdlen (rs1Of cmd)
  | .rdlimb => .rdlimb (rs1Of cmd) (rs2Of cmd)

/-- Whether the row's operand is the zero-extended 32-bit value of INC and DEC (R86). -/
def Mnemonic.takesLimb : Mnemonic → Bool
  | .inc => true
  | .dec => true
  | .create => false
  | .toi32 => false
  | .toi64 => false
  | .cmp => false
  | .add => false
  | .sub => false
  | .neg => false
  | .mov => false
  | .rdsgn => false
  | .rdlen => false
  | .rdlimb => false

/-- The row a word matches, if any (R89, R91). -/
def findRow (cmd : CmdWord) : Option OpRow := opcodeTable.find? fun row => row.hits cmd

/-- Decode a presented command (R91). -/
def decode (cmd : CmdWord) (din : Din) : Except DecodeReject Instr :=
  match findRow cmd with
  | none =>
    if opcodeTable.any fun row => row.opc == opcOf cmd then .error .mustBeZero else .error .unassignedOpcode
  | some row =>
    if row.mn.takesLimb && !dinFitsLimb din then .error .dinTooWide else .ok (buildInstr row.mn cmd din)

/-- The opcode of a row (R89). -/
def Mnemonic.opcode : Mnemonic → BitVec 6
  | .create => 0x01
  | .toi32 => 0x02
  | .toi64 => 0x03
  | .cmp => 0x04
  | .add => 0x05
  | .sub => 0x06
  | .inc => 0x07
  | .dec => 0x08
  | .neg => 0x09
  | .mov => 0x0A
  | .rdsgn => 0x0B
  | .rdlen => 0x0C
  | .rdlimb => 0x0D

/-- The opcode of a command (R89). -/
def Instr.opcode (i : Instr) : BitVec 6 := i.mnemonic.opcode

/-- A 3-bit field put at bit `lo` of a command word (R82). -/
def putField (n : Fin 8) (lo : Nat) : CmdWord := BitVec.ofNat 32 n.val <<< lo

/-- A command word from its opcode and its three 3-bit fields, with `RSV = 0` (R82, R94). -/
def packWord (opc : BitVec 6) (rd rs1 rs2 : Fin 8) : CmdWord :=
  (opc.setWidth 32 <<< 26) ||| putField rd 23 ||| putField rs1 20 ||| putField rs2 17

/-- The command word of an instruction: unused fields zero (R85, R94). -/
def encodeWord (i : Instr) : CmdWord :=
  match i with
  | .create rd _ => packWord 0x01 rd 0 0
  | .toi32 rs1 => packWord 0x02 0 rs1 0
  | .toi64 rs1 => packWord 0x03 0 rs1 0
  | .cmp rs1 rs2 => packWord 0x04 0 rs1 rs2
  | .add rd rs1 rs2 => packWord 0x05 rd rs1 rs2
  | .sub rd rs1 rs2 => packWord 0x06 rd rs1 rs2
  | .inc rd _ => packWord 0x07 rd 0 0
  | .dec rd _ => packWord 0x08 rd 0 0
  | .neg rd rs1 => packWord 0x09 rd rs1 0
  | .mov rd rs1 => packWord 0x0A rd rs1 0
  | .rdsgn rs1 => packWord 0x0B 0 rs1 0
  | .rdlen rs1 => packWord 0x0C 0 rs1 0
  | .rdlimb rs1 k => packWord 0x0D 0 rs1 k

/-- The `din` that goes with an instruction: its operand, or 0 where the command ignores it (R94). -/
def encodeDin (i : Instr) : Din :=
  match i with
  | .create _ din => din
  | .inc _ din => din
  | .dec _ din => din
  | .toi32 _ => 0
  | .toi64 _ => 0
  | .cmp _ _ => 0
  | .add _ _ _ => 0
  | .sub _ _ _ => 0
  | .neg _ _ => 0
  | .mov _ _ => 0
  | .rdsgn _ => 0
  | .rdlen _ => 0
  | .rdlimb _ _ => 0

/-- The encoder: the `(cmd, din)` pair an instruction stands for (R94). -/
def encode (i : Instr) : CmdWord × Din := (encodeWord i, encodeDin i)

/-- The command word of an instruction whose bits are `w`, as opcode_table.json numbers them: bits 31..0 of the
`nbits` bits given, the rest zero. DESIGN CHOICE (log entry 7): the operand `din` counts on from bit 32. -/
def tableCmd (nbits w : Nat) : CmdWord := BitVec.ofNat 32 (w % 2 ^ nbits)

/-- The operand of an instruction whose bits are `w`: bits 95..32 of the `nbits` bits given (log entry 7). -/
def tableDin (nbits w : Nat) : Din := BitVec.ofNat 64 (w % 2 ^ nbits / 2 ^ 32)

/-- The instruction the decoder reads from an instruction whose bits are `w`. -/
def decodeTableWord (nbits w : Nat) : Option Instr :=
  match decode (tableCmd nbits w) (tableDin nbits w) with
  | .ok i => some i
  | .error _ => none

end Sys2Proof
end

