-- ==== Sys2Proof/Machine/State.lean ====
section
/-!
DEFINITION. The state of the block (10_state.md): eight value registers, `RES`, `STATUS`, and the events the host
has still to present. Plain data throughout.
-/

namespace Sys2Proof.Machine

/-- The sign tag, one of -1, 0 and +1 (10_state.md R34; the storage code `0b10` does not exist, I13). -/
inductive Sgn
  | neg | zero | pos
deriving DecidableEq, Repr

/-- A magnitude record: the number of significant limbs, 0 to 8, and eight 32-bit limbs, least significant first
(10_state.md R31, 20_memory.md R63). -/
structure Mag where
  len : Fin 9
  limb : Vector Limb 8
deriving DecidableEq, Repr

/-- `ZERO_MAG` (00_scope.md R12, 10_state.md R33). -/
def Mag.zero : Mag := { len := 0, limb := Vector.replicate 8 0 }

/-- A signed record: what a value register holds (10_state.md R30). -/
structure Value where
  sgn : Sgn
  mag : Mag
deriving DecidableEq, Repr

/-- `ZERO`, the canonical zero (00_scope.md R12). -/
def Value.zero : Value := { sgn := .zero, mag := Mag.zero }

/-- The faults of 60_exceptions.md R240. They are taken by fault entry (R246) and end in a next state; they are
not the model's stops. -/
inductive Cause
  /-- Code 1: a result would need more than `CAP` limbs (R241). -/
  | capacityOverflow
  /-- Code 2: the value is outside the target's signed range (R242). -/
  | narrowingOverflow
  /-- Code 3: first operand of a subtraction smaller than the second; no command reaches it (R243). -/
  | preconditionViolation
  /-- Code 4: an illegal command (R244). -/
  | illegalCommand
deriving DecidableEq, Repr

/-- `STATUS` (10_state.md R39) by its fields. The reserved bits are hardwired 0 and have no storage; `Status.word`
assembles the 32 bits the host reads. `cause = none` is code 0. -/
structure Status where
  faulted : Bool
  cause : Option Cause
  fopc : BitVec 6
deriving DecidableEq, Repr

/-- `STATUS` after reset: every bit 0 (10_state.md R49). -/
def Status.clear : Status := { faulted := false, cause := none, fopc := 0 }

/-- What the host can do to the block (70_reset_and_hazards.md R278). Reading the outputs is no event: they are
functions of the state with no side effect (20_memory.md R70). -/
inductive HostEvent
  /-- `rst = 1`, then 0 (R270). -/
  | reset
  /-- A command presented on `cmd` and `din` (30_encoding.md R81). -/
  | command (cmd : CmdWord) (din : Din)
deriving DecidableEq, Repr

/-- The state of the block. `host` is the model's own field (log entry 1): the events the host has still to
present, first one first. -/
structure State where
  /-- The value registers `V[0..7]` (10_state.md R30). -/
  V : Vector Value 8
  /-- The result register (10_state.md R38). -/
  RES : BitVec 64
  /-- The status register (10_state.md R39). -/
  STATUS : Status
  /-- The rest of the host's sequence (10_state.md R46, R50; 70_reset_and_hazards.md R279). -/
  host : List HostEvent
deriving DecidableEq, Repr

/-- The state right after reset (10_state.md R49, 70_reset_and_hazards.md R270), with no host event placed. -/
def State.reset : State :=
  { V := Vector.replicate 8 Value.zero, RES := 0, STATUS := Status.clear, host := [] }

/-- Why the model stops. -/
inductive Fault
  /-- Raised by `step`, and only by it, when the block is HALTED and no reset is the next event: the block accepts
  no command and is stuck (60_exceptions.md R247). Safe: the model stops where the hardware only waits for reset. -/
  | halted
deriving DecidableEq, Repr

/-- Why an instruction has no meaning here. -/
inductive Refusal
  /-- Raised by `exec`'s arm of an instruction that is not modelled yet, with its mnemonic. No arm raises it: every
  command has its meaning. Safe. -/
  | notModelled (mnemonic : String)
deriving DecidableEq, Repr

end Sys2Proof.Machine
end

