-- ==== Sys2Proof/Machine/Operands.lean ====
section
/-!
DEFINITION. The operand forms: value registers, `din`, and limbs of a magnitude (30_encoding.md R84 to R87).
-/

namespace Sys2Proof.Machine

/-- Read `V[r]` (00_scope.md R11). -/
def State.readV (s : State) (r : Reg) : Value := s.V[r]

/-- `din[31:0]`, the unsigned 32-bit value of INC and DEC (30_encoding.md R86). -/
def limbOperand (din : Din) : Limb := din.extractLsb' 0 32

/-- Read `limb[i]`; the block has limbs 0 to 7. -/
def Mag.limbAt (m : Mag) (i : Nat) : Limb := m.limb.getD i 0

/-- Write `limb[i]`; the engine writes limbs 0 to 7 only. -/
def Mag.putLimb (m : Mag) (i : Nat) (v : Limb) : Mag := { m with limb := m.limb.setIfInBounds i v }

/-- Write `len`; every caller's `n` is at most 8. -/
def Mag.setLen (m : Mag) (n : Nat) : Mag := { m with len := Fin.ofNat 9 n }

end Sys2Proof.Machine
end

