-- ==== Sys2Proof/Machine/Flags.lean ====
section
/-!
DEFINITION. The block has no flags (10_state.md R41). What stands in their place is here: the three-valued signs
and comparison results as numbers (00_scope.md R14, 30_encoding.md R88) and the bits of `STATUS` (10_state.md R39).
-/

namespace Sys2Proof.Machine

/-- The integer of a sign tag (10_state.md R34). -/
def Sgn.toInt : Sgn → Int
  | .neg => -1
  | .zero => 0
  | .pos => 1

/-- The opposite sign (43_add_sub.md R186). -/
def Sgn.negate : Sgn → Sgn
  | .neg => .pos
  | .zero => .zero
  | .pos => .neg

/-- The 2-bit storage code of a sign tag (10_state.md R35). -/
def Sgn.code : Sgn → BitVec 2
  | .neg => 0b11
  | .zero => 0b00
  | .pos => 0b01

/-- The integer -1, 0 or +1 of a comparison result (00_scope.md R14). -/
def orderInt : Ordering → Int
  | .lt => -1
  | .eq => 0
  | .gt => 1

/-- A small integer in `RES`, as 64-bit two's complement (30_encoding.md R88). -/
def resOfInt (k : Int) : BitVec 64 := BitVec.ofInt 64 k

/-- The cause code of a fault (60_exceptions.md R240). -/
def Cause.code : Cause → BitVec 4
  | .capacityOverflow => 1
  | .narrowingOverflow => 2
  | .preconditionViolation => 3
  | .illegalCommand => 4

/-- The `CAUSE` field: 0 when no fault was taken (60_exceptions.md R240). -/
def causeCode : Option Cause → BitVec 4
  | none => 0
  | some c => c.code

/-- The 32 bits of `STATUS`: `FAULTED` [0], `CAUSE` [7:4], `FOPC` [13:8], the others hardwired 0
(10_state.md R39). -/
def Status.word (st : Status) : BitVec 32 :=
  0#18 ++ st.fopc ++ causeCode st.cause ++ 0#3 ++ BitVec.ofBool st.faulted

end Sys2Proof.Machine
end

