-- ==== Sys2Proof/Machine/Ops.lean ====
section
/-!
DEFINITION. The named operations over the state: register writes, the outputs, fault entry, reset, and the two
ways a command ends (60_exceptions.md R246, 70_reset_and_hazards.md R270). The block has no return from a fault
(60_exceptions.md R248): reset is the only way out of HALTED.
-/

namespace Sys2Proof.Machine

/-- Write `V[r]` and no other register (10_state.md R37). -/
def State.writeV (s : State) (r : Reg) (x : Value) : State := { s with V := s.V.set r x }

/-- Write all 64 bits of `RES` (20_memory.md R68). -/
def State.writeRES (s : State) (v : BitVec 64) : State := { s with RES := v }

/-- The run state is HALTED exactly when `STATUS.FAULTED = 1` (10_state.md R44). -/
def State.halted (s : State) : Bool := s.STATUS.faulted

/-- The `cmd_ready` output between commands: 1 in RUN, 0 in HALTED (30_encoding.md R80, 10_state.md R45). -/
def State.cmdReady (s : State) : Bool := !s.halted

/-- The `res` output (30_encoding.md R80). -/
def State.resOut (s : State) : BitVec 64 := s.RES

/-- The `status` output (30_encoding.md R80). -/
def State.statusOut (s : State) : BitVec 32 := s.STATUS.word

/-- The `fault` output, equal to `STATUS.FAULTED` (30_encoding.md R80). -/
def State.faultOut (s : State) : Bool := s.STATUS.faulted

/-- Fault entry (60_exceptions.md R246): `STATUS` records the cause and the opcode, the block is HALTED, and
nothing else changes. -/
def takeFault (c : Cause) (opc : BitVec 6) (s : State) : State :=
  { s with STATUS := { faulted := true, cause := some c, fopc := opc } }

/-- Reset (70_reset_and_hazards.md R270): every piece of the block's state takes its reset value. What the host
has still to present is not state of the block and stays (log entry 4). -/
def resetBlock (s : State) : State := { State.reset with host := s.host }

/-- A command that writes a value register ends: its result is written, or its fault is taken and nothing is
written (00_scope.md R13). -/
def finishV (mn : Mnemonic) (rd : Reg) (result : Except Cause Value) (s : State) :
    Host.Outcome State Fault Refusal :=
  match result with
  | .ok x => .next (s.writeV rd x)
  | .error c => .next (takeFault c mn.opcode s)

/-- A command that writes `RES` ends: its result is written, or its fault is taken and nothing is written
(00_scope.md R13). -/
def finishRES (mn : Mnemonic) (result : Except Cause (BitVec 64)) (s : State) : Host.Outcome State Fault Refusal :=
  match result with
  | .ok v => .next (s.writeRES v)
  | .error c => .next (takeFault c mn.opcode s)

end Sys2Proof.Machine
end

