-- ==== Sys2Proof/Machine/Magnitude.lean ====
section
/-!
DEFINITION. The magnitude engine (40_magnitude_engine.md): comparators, carry-propagating adder,
borrow-propagating subtractor, normalizer, single-limb incrementer and decrementer. Nothing here sees a sign
(R110). A loop of the spec over limb indexes is a recursion whose first argument counts the limbs still to go.
-/

namespace Sys2Proof.Machine

/-- The sum of limbs 0 to `n - 1`, limb `i` weighing `2^(32 i)` (00_scope.md R12). -/
def Mag.valBelow (m : Mag) : Nat → Nat
  | 0 => 0
  | n + 1 => m.valBelow n + 2 ^ (32 * n) * (m.limbAt n).toNat

/-- `val(m)` (00_scope.md R12). -/
def Mag.val (m : Mag) : Nat := m.valBelow 8

/-- `sval(x)` (00_scope.md R12). -/
def Value.sval (x : Value) : Int := x.sgn.toInt * (x.mag.val : Int)

/-- `mag_of_limb(v)` (00_scope.md R12). -/
def magOfLimb (v : Limb) : Mag := if v = 0 then Mag.zero else (Mag.zero.putLimb 0 v).setLen 1

/-- One limb position's sum in the accumulator (R111). -/
def accSum (x y : Limb) (carry : Acc) : Acc := x.setWidth 64 + y.setWidth 64 + carry

/-- One limb position's difference in the accumulator, modulo `2^64` (R111). -/
def accDiff (x y : Limb) (borrow : Acc) : Acc := x.setWidth 64 - y.setWidth 64 - borrow

/-- `s[31:0]`, the limb of an accumulator (R111). -/
def accLimb (s : Acc) : Limb := s.extractLsb' 0 32

/-- `s[63:32]`, the carry-out of a sum, zero-extended (R111). -/
def accCarry (s : Acc) : Acc := (s.extractLsb' 32 32).setWidth 64

/-- `d[63]`, the borrow-out of a difference, zero-extended (R111). -/
def accBorrow (d : Acc) : Acc := (d.extractLsb' 63 1).setWidth 64

/-- The loop of `mag_compare` over limbs `n - 1` down to 0 (R112). -/
def compareLimbs (a b : Mag) : Nat → Ordering
  | 0 => .eq
  | n + 1 =>
    if a.limbAt n > b.limbAt n then .gt
    else if a.limbAt n < b.limbAt n then .lt
    else compareLimbs a b n

/-- `mag_compare(a, b)` (R112). -/
def magCompare (a b : Mag) : Ordering :=
  if a.len > b.len then .gt
  else if a.len < b.len then .lt
  else compareLimbs a b a.len.val

/-- `mag_compare_small(a, v)` (R113). An empty magnitude gives -1 even when `v = 0`, as R113 states it. -/
def magCompareSmall (a : Mag) (v : Limb) : Ordering :=
  if a.len = 0 then .lt
  else if a.len > 1 then .gt
  else if a.limbAt 0 > v then .gt
  else if a.limbAt 0 < v then .lt
  else .eq

/-- The loop of `mag_add` from limb `i` on (R114): the limbs written and the carry out of the last position. -/
def addLoop (a b : Mag) : Nat → Nat → Acc → Mag → Mag × Acc
  | 0, _, carry, r => (r, carry)
  | n + 1, i, carry, r =>
    let s := accSum (a.limbAt i) (b.limbAt i) carry
    addLoop a b n (i + 1) (accCarry s) (r.putLimb i (accLimb s))

/-- `mag_add(a, b)` (R114). -/
def magAdd (a b : Mag) : Except Cause Mag :=
  let n := max a.len.val b.len.val
  let (r, carry) := addLoop a b n 0 0 Mag.zero
  if carry = 1 then
    if n = Config.CAP then .error .capacityOverflow else .ok ((r.putLimb n 1).setLen (n + 1))
  else .ok (r.setLen n)

/-- The scan of `normalize_from` over the indexes below `n`: one more than the highest nonzero limb's (R117). -/
def topLimb (m : Mag) : Nat → Nat
  | 0 => 0
  | n + 1 => if m.limbAt n ≠ 0 then n + 1 else topLimb m n

/-- `normalize_from(m, n - 1)` (R117). -/
def normalizeBelow (m : Mag) (n : Nat) : Mag := m.setLen (topLimb m n)

/-- The loop of `mag_sub` from limb `i` on (R116). -/
def subLoop (a b : Mag) : Nat → Nat → Acc → Mag → Mag
  | 0, _, _, r => r
  | n + 1, i, borrow, r =>
    let d := accDiff (a.limbAt i) (b.limbAt i) borrow
    subLoop a b n (i + 1) (accBorrow d) (r.putLimb i (accLimb d))

/-- `mag_sub(a, b)`, with its precondition checked (R116, R120). -/
def magSub (a b : Mag) : Except Cause Mag :=
  if magCompare a b = .lt then .error .preconditionViolation
  else .ok (normalizeBelow (subLoop a b a.len.val 0 0 Mag.zero) a.len.val)

/-- The loop of `mag_inc` from limb `i` on (R118): the limbs and how many were reached. The count runs out at
`i = CAP`, where a carry left over is the capacity overflow (R121). -/
def incLoop : Nat → Nat → Acc → Mag → Except Cause (Mag × Nat)
  | 0, i, carry, r => if carry = 0 then .ok (r, i) else .error .capacityOverflow
  | n + 1, i, carry, r =>
    if carry = 0 then .ok (r, i)
    else
      let s := (r.limbAt i).setWidth 64 + carry
      incLoop n (i + 1) (accCarry s) (r.putLimb i (accLimb s))

/-- `mag_inc(a, v)` (R118). -/
def magInc (a : Mag) (v : Limb) : Except Cause Mag :=
  match incLoop Config.CAP 0 (v.setWidth 64) a with
  | .ok (r, i) => .ok (r.setLen (max r.len.val i))
  | .error c => .error c

/-- The loop of `mag_dec` from limb `i` on (R119). On a record that meets the invariant the borrow ends before the
count does; log entry 5 says what the bound means on others. -/
def decLoop : Nat → Nat → Acc → Mag → Mag
  | 0, _, _, r => r
  | n + 1, i, borrow, r =>
    if borrow = 0 then r
    else
      let d := (r.limbAt i).setWidth 64 - borrow
      decLoop n (i + 1) (accBorrow d) (r.putLimb i (accLimb d))

/-- `mag_dec(a, v)`, with its precondition checked (R119, R120). -/
def magDec (a : Mag) (v : Limb) : Except Cause Mag :=
  if magCompare a (magOfLimb v) = .lt then .error .preconditionViolation
  else .ok (normalizeBelow (decLoop Config.CAP 0 (v.setWidth 64) a) a.len.val)

end Sys2Proof.Machine
end

