-- ==== Sys2Proof/Machine/Compare.lean ====
section
/-!
DEFINITION. The signed comparison dispatcher (42_compare.md): CMP.
-/

namespace Sys2Proof.Machine

/-- `scmp(a, b)` (R171). -/
def scmp (a b : Value) : Ordering :=
  if a.sgn ≠ b.sgn then (if a.sgn.toInt > b.sgn.toInt then .gt else .lt)
  else
    let c := magCompare a.mag b.mag
    if a.sgn = .neg then c.swap else c

/-- CMP (R170). -/
def execCmp (rs1 rs2 : Reg) (s : State) : Host.Outcome State Fault Refusal :=
  finishRES .cmp (.ok (resOfInt (orderInt (scmp (s.readV rs1) (s.readV rs2))))) s

end Sys2Proof.Machine
end

