-- ==== Sys2Proof/Machine/Conversion.lean ====
section
/-!
DEFINITION. Construction from a signed 64-bit integer and narrowing back (41_conversion.md): CREATE, TOI32, TOI64.
-/

namespace Sys2Proof.Machine

/-- `abs64(v)`, widened to unsigned before negating (R151). -/
def abs64 (v : Din) : BitVec 64 := if v.msb then ~~~v + 1 else v

/-- The loop of `screate` from limb `i` on, which runs at most twice (R150, R152). -/
def splitLoop : Nat → Nat → BitVec 64 → Mag → Mag
  | 0, i, _, m => m.setLen i
  | n + 1, i, u, m =>
    if u = 0 then m.setLen i
    else splitLoop n (i + 1) (u >>> 32) (m.putLimb i (u.extractLsb' 0 32))

/-- `screate(v)` (R150). -/
def screate (v : Din) : Value :=
  if v = 0 then Value.zero
  else { sgn := if v.msb then .neg else .pos, mag := splitLoop 2 0 (abs64 v) Mag.zero }

/-- `narrow(x, n)`, for `n` 32 or 64 (R154). -/
def narrow (x : Value) (n : Nat) : Except Cause (BitVec n) :=
  if x.sgn = .zero then .ok 0
  else if x.mag.len.val > Config.limbsOf n then .error .narrowingOverflow
  else
    let u := x.mag.valBelow x.mag.len.val
    if x.sgn = .pos ∧ u > 2 ^ (n - 1) - 1 then .error .narrowingOverflow
    else if x.sgn = .neg ∧ u > 2 ^ (n - 1) then .error .narrowingOverflow
    else .ok (BitVec.ofInt n (x.sgn.toInt * (u : Int)))

/-- CREATE (R153). -/
def execCreate (rd : Reg) (din : Din) (s : State) : Host.Outcome State Fault Refusal :=
  finishV .create rd (.ok (screate din)) s

/-- TOI32: the 32-bit result sign-extended into `RES` (R156). -/
def execToi32 (rs1 : Reg) (s : State) : Host.Outcome State Fault Refusal :=
  finishRES .toi32 ((narrow (s.readV rs1) 32).map fun r => r.signExtend 64) s

/-- TOI64 (R155). -/
def execToi64 (rs1 : Reg) (s : State) : Host.Outcome State Fault Refusal :=
  finishRES .toi64 (narrow (s.readV rs1) 64) s

end Sys2Proof.Machine
end

