-- ==== Sys2Proof/Machine/AddSub.lean ====
section
/-!
DEFINITION. Signed addition, subtraction and negation (43_add_sub.md): ADD, SUB, NEG. Every command reads its
sources before it writes (70_reset_and_hazards.md R274): the result is computed from the old state.
-/

namespace Sys2Proof.Machine

/-- Put a sign back on an engine result, or pass its fault up (00_scope.md R2, R13). -/
def withSign (sgn : Sgn) (m : Except Cause Mag) : Except Cause Value :=
  match m with
  | .ok m => .ok { sgn := sgn, mag := m }
  | .error c => .error c

/-- `sadd(a, b)` (R180). -/
def sadd (a b : Value) : Except Cause Value :=
  if b.sgn = .zero then .ok a
  else if a.sgn = .zero then .ok b
  else if a.sgn = b.sgn then withSign a.sgn (magAdd a.mag b.mag)
  else
    match magCompare a.mag b.mag with
    | .eq => .ok Value.zero
    | .gt => withSign a.sgn (magSub a.mag b.mag)
    | .lt => withSign b.sgn (magSub b.mag a.mag)

/-- `sneg(a)` (R186). -/
def sneg (a : Value) : Value := { sgn := a.sgn.negate, mag := a.mag }

/-- `ssub(a, b)`, as R183 writes it out. -/
def ssub (a b : Value) : Except Cause Value :=
  if b.sgn = .zero then .ok a
  else if a.sgn = .zero then .ok (sneg b)
  else if a.sgn ≠ b.sgn then withSign a.sgn (magAdd a.mag b.mag)
  else
    match magCompare a.mag b.mag with
    | .eq => .ok Value.zero
    | .gt => withSign a.sgn (magSub a.mag b.mag)
    | .lt => withSign a.sgn.negate (magSub b.mag a.mag)

/-- ADD (R181). -/
def execAdd (rd rs1 rs2 : Reg) (s : State) : Host.Outcome State Fault Refusal :=
  finishV .add rd (sadd (s.readV rs1) (s.readV rs2)) s

/-- SUB (R184). -/
def execSub (rd rs1 rs2 : Reg) (s : State) : Host.Outcome State Fault Refusal :=
  finishV .sub rd (ssub (s.readV rs1) (s.readV rs2)) s

/-- NEG (R187). -/
def execNeg (rd rs1 : Reg) (s : State) : Host.Outcome State Fault Refusal :=
  finishV .neg rd (.ok (sneg (s.readV rs1))) s

end Sys2Proof.Machine
end

