-- ==== Sys2Proof/Machine/IncDec.lean ====
section
/-!
DEFINITION. In-place increment and decrement (44_inc_dec.md): INC, DEC.
-/

namespace Sys2Proof.Machine

/-- `sstep(x, v, d)`, with `d` the direction +1 or -1 (R200). -/
def sstep (x : Value) (v : Limb) (d : Sgn) : Except Cause Value :=
  if x.sgn = .zero ∨ x.sgn = d then
    withSign (if x.sgn = .zero ∧ v ≠ 0 then d else x.sgn) (magInc x.mag v)
  else
    match magCompareSmall x.mag v with
    | .eq => .ok Value.zero
    | .gt => withSign x.sgn (magDec x.mag v)
    | .lt => .ok { sgn := d, mag := magOfLimb (v - x.mag.limbAt 0) }

/-- The shared form of INC and DEC: an operand wider than a limb is an illegal command, and nothing else of it
happens (R201, R202; 30_encoding.md R86). -/
def stepV (mn : Mnemonic) (d : Sgn) (rd : Reg) (din : Din) (s : State) : Host.Outcome State Fault Refusal :=
  if dinFitsLimb din then finishV mn rd (sstep (s.readV rd) (limbOperand din) d) s
  else .next (takeFault .illegalCommand mn.opcode s)

/-- INC (R201). -/
def execInc (rd : Reg) (din : Din) (s : State) : Host.Outcome State Fault Refusal := stepV .inc .pos rd din s

/-- DEC (R202). -/
def execDec (rd : Reg) (din : Din) (s : State) : Host.Outcome State Fault Refusal := stepV .dec .neg rd din s

end Sys2Proof.Machine
end

