-- ==== Sys2Proof/Machine/MoveDebug.lean ====
section
/-!
DEFINITION. Copy and read-out commands (45_move_debug.md): MOV, RDSGN, RDLEN, RDLIMB.
-/

namespace Sys2Proof.Machine

/-- MOV (R220). -/
def execMov (rd rs1 : Reg) (s : State) : Host.Outcome State Fault Refusal :=
  finishV .mov rd (.ok (s.readV rs1)) s

/-- RDSGN (R221). -/
def execRdsgn (rs1 : Reg) (s : State) : Host.Outcome State Fault Refusal :=
  finishRES .rdsgn (.ok (resOfInt (s.readV rs1).sgn.toInt)) s

/-- RDLEN (R222). -/
def execRdlen (rs1 : Reg) (s : State) : Host.Outcome State Fault Refusal :=
  finishRES .rdlen (.ok (BitVec.ofNat 64 (s.readV rs1).mag.len.val)) s

/-- RDLIMB (R223). -/
def execRdlimb (rs1 : Reg) (k : LimbIx) (s : State) : Host.Outcome State Fault Refusal :=
  finishRES .rdlimb (.ok (((s.readV rs1).mag.limbAt k.val).setWidth 64)) s

end Sys2Proof.Machine
end

