-- ==== Sys2Proof/Machine/Dispatch.lean ====
section
/-! DEFINITION. One arm per constructor of Instr, each one direct call of the command's meaning. -/

namespace Sys2Proof.Machine

/-- What an accepted command does (30_encoding.md R89, R91). -/
def exec (i : Instr) (s : State) : Host.Outcome State Fault Refusal :=
  match i with
  | .create rd din => Sys2Proof.Machine.execCreate rd din s
  | .toi32 rs1 => Sys2Proof.Machine.execToi32 rs1 s
  | .toi64 rs1 => Sys2Proof.Machine.execToi64 rs1 s
  | .cmp rs1 rs2 => Sys2Proof.Machine.execCmp rs1 rs2 s
  | .add rd rs1 rs2 => Sys2Proof.Machine.execAdd rd rs1 rs2 s
  | .sub rd rs1 rs2 => Sys2Proof.Machine.execSub rd rs1 rs2 s
  | .inc rd din => Sys2Proof.Machine.execInc rd din s
  | .dec rd din => Sys2Proof.Machine.execDec rd din s
  | .neg rd rs1 => Sys2Proof.Machine.execNeg rd rs1 s
  | .mov rd rs1 => Sys2Proof.Machine.execMov rd rs1 s
  | .rdsgn rs1 => Sys2Proof.Machine.execRdsgn rs1 s
  | .rdlen rs1 => Sys2Proof.Machine.execRdlen rs1 s
  | .rdlimb rs1 k => Sys2Proof.Machine.execRdlimb rs1 k s

end Sys2Proof.Machine
end

