-- ==== Sys2Proof/Machine/Accept.lean ====
section
/-!
DEFINITION. The command transaction (30_encoding.md R81): a presented command is decoded, then executed whole or
turned into a fault.
-/

namespace Sys2Proof.Machine

/-- Accept a presented command (R81, R91). A word that does not decode raises IllegalCommand with the opcode as
presented, and nothing of it executes (60_exceptions.md R244). -/
def acceptCommand (cmd : CmdWord) (din : Din) (s : State) : Host.Outcome State Fault Refusal :=
  match decode cmd din with
  | .ok i => exec i s
  | .error _ => .next (takeFault .illegalCommand (opcOf cmd) s)

/-- One step of a block whose next host event is `e` (log entries 1 and 3): reset is a step of its own and works
from RUN and HALTED (60_exceptions.md R250); a command is accepted in RUN only, and HALTED is stuck (R247). -/
def hostStep (e : HostEvent) (s : State) : Host.Outcome State Fault Refusal :=
  match e with
  | .reset => .next (resetBlock s)
  | .command cmd din => if s.halted then .fault .halted else acceptCommand cmd din s

/-- One step with no event presented: in RUN the block waits and keeps its state (log entry 2), HALTED is stuck. -/
def idleStep (s : State) : Host.Outcome State Fault Refusal :=
  if s.halted then .fault .halted else .next s

end Sys2Proof.Machine
end

