-- ==== Sys2Proof/Machine/Step.lean ====
section
/-!
DEFINITION. One step of the model: the host's next event taken from the state, or none. Accepting a command is
one step (30_encoding.md R81), reset is one (60_exceptions.md R250).
-/

namespace Sys2Proof.Machine

/-- One step. The event taken leaves the host's list before it acts. -/
def step (s : State) : Host.Outcome State Fault Refusal :=
  match s.host with
  | [] => idleStep s
  | e :: rest => hostStep e { s with host := rest }

/-- Place an instruction, its bits numbered as opcode_table.json numbers them, where `step` takes its next one: at
the head of the host's events (log entry 6). -/
def State.withFetchWord (s : State) (nbits w : Nat) : State :=
  { s with host := .command (tableCmd nbits w) (tableDin nbits w) :: s.host }

end Sys2Proof.Machine
end

