-- ==== Sys2Proof/Machine/Assembler.lean ====
section
/-!
DEFINITION. The assembler syntax (30_encoding.md R94, R95): a line of text, the command it stands for, and its
`(cmd, din)` pair. It belongs to the host's side; nothing in the machine calls it. Text is a list of characters.
DESIGN CHOICE (log entry 8): mnemonics are upper case, `v` and `0x` lower case, and blanks may stand around every
word; the spec does not say.
-/

namespace Sys2Proof.Machine

/-- A line of R94's forms, its immediates not yet checked, or the pseudo-instruction CLR of R95. -/
inductive AsmLine
  | create (vd : Reg) (imm : Int)
  | toi32 (vs : Reg)
  | toi64 (vs : Reg)
  | cmp (vs vt : Reg)
  | add (vd vs vt : Reg)
  | sub (vd vs vt : Reg)
  | inc (vd : Reg) (imm : Int)
  | dec (vd : Reg) (imm : Int)
  | neg (vd vs : Reg)
  | mov (vd vs : Reg)
  | rdsgn (vs : Reg)
  | rdlen (vs : Reg)
  | rdlimb (vs : Reg) (k : Int)
  | clr (vd : Reg)
deriving DecidableEq, Repr

/-- Why a line is not assembled. -/
inductive AsmError
  /-- The text is none of R94's forms. -/
  | badForm
  /-- The immediate is out of its range, so the line is never encoded (R94). -/
  | immediateOutOfRange
deriving DecidableEq, Repr

/-- The immediate of a form, if it lies in the form's range (R94). -/
def immIn (lo hi imm : Int) (i : Instr) : Except AsmError Instr :=
  if lo ≤ imm ∧ imm ≤ hi then .ok i else .error .immediateOutOfRange

/-- The command a line stands for (R94, R95). -/
def assemble : AsmLine → Except AsmError Instr
  | .create vd imm => immIn (-2 ^ 63) (2 ^ 63 - 1) imm (.create vd (BitVec.ofInt 64 imm))
  | .toi32 vs => .ok (.toi32 vs)
  | .toi64 vs => .ok (.toi64 vs)
  | .cmp vs vt => .ok (.cmp vs vt)
  | .add vd vs vt => .ok (.add vd vs vt)
  | .sub vd vs vt => .ok (.sub vd vs vt)
  | .inc vd imm => immIn 0 (2 ^ 32 - 1) imm (.inc vd (BitVec.ofInt 64 imm))
  | .dec vd imm => immIn 0 (2 ^ 32 - 1) imm (.dec vd (BitVec.ofInt 64 imm))
  | .neg vd vs => .ok (.neg vd vs)
  | .mov vd vs => .ok (.mov vd vs)
  | .rdsgn vs => .ok (.rdsgn vs)
  | .rdlen vs => .ok (.rdlen vs)
  | .rdlimb vs k => immIn 0 7 k (.rdlimb vs (Fin.ofNat 8 k.toNat))
  | .clr vd => .ok (Instr.clr vd)

/-- A blank between words. -/
def isBlank (c : Char) : Bool := c == ' ' || c == '\t'

/-- The text without blanks at either end. -/
def trimBlanks (t : List Char) : List Char := ((t.dropWhile isBlank).reverse.dropWhile isBlank).reverse

/-- The text up to a comment (R94). -/
def dropComment (t : List Char) : List Char := t.takeWhile (· != ';')

/-- The pieces between commas (R94). -/
def splitCommas : List Char → List (List Char)
  | [] => [[]]
  | c :: t =>
    if c == ',' then [] :: splitCommas t
    else
      match splitCommas t with
      | [] => [[c]]
      | p :: ps => (c :: p) :: ps

/-- A digit's value in the given base, 10 or 16. -/
def digitVal (base : Nat) (c : Char) : Option Nat :=
  if '0' ≤ c ∧ c ≤ '9' then some (c.toNat - '0'.toNat)
  else if base = 16 ∧ 'a' ≤ c ∧ c ≤ 'f' then some (c.toNat - 'a'.toNat + 10)
  else if base = 16 ∧ 'A' ≤ c ∧ c ≤ 'F' then some (c.toNat - 'A'.toNat + 10)
  else none

/-- The number a nonempty row of digits denotes, after the digits already read as `acc`. -/
def digitsFrom (base acc : Nat) : List Char → Option Nat
  | [] => some acc
  | c :: t =>
    match digitVal base c with
    | some d => digitsFrom base (acc * base + d) t
    | none => none

/-- A nonempty row of digits. -/
def parseDigits (base : Nat) (t : List Char) : Option Nat := if t.isEmpty then none else digitsFrom base 0 t

/-- A register, `v0` to `v7` (R94). -/
def parseReg (t : List Char) : Option Reg :=
  match t with
  | ['v', c] => if '0' ≤ c ∧ c ≤ '7' then some (Fin.ofNat 8 (c.toNat - '0'.toNat)) else none
  | _ => none

/-- An immediate: `#` and a decimal integer, optionally signed, or `#` and a `0x` hex integer (R94). -/
def parseImm (t : List Char) : Option Int :=
  match t with
  | '#' :: '0' :: 'x' :: h => (parseDigits 16 h).map fun n => (n : Int)
  | '#' :: '-' :: d => (parseDigits 10 d).map fun n => -(n : Int)
  | '#' :: '+' :: d => (parseDigits 10 d).map fun n => (n : Int)
  | '#' :: d => (parseDigits 10 d).map fun n => (n : Int)
  | _ => none

/-- A form with one register. -/
def form1 (mk : Reg → AsmLine) (ops : List (List Char)) : Option AsmLine :=
  match ops with
  | [a] => (parseReg a).map mk
  | _ => none

/-- A form with two registers. -/
def form2 (mk : Reg → Reg → AsmLine) (ops : List (List Char)) : Option AsmLine :=
  match ops with
  | [a, b] => (parseReg a).bind fun x => (parseReg b).map (mk x)
  | _ => none

/-- A form with three registers. -/
def form3 (mk : Reg → Reg → Reg → AsmLine) (ops : List (List Char)) : Option AsmLine :=
  match ops with
  | [a, b, c] => (parseReg a).bind fun x => (parseReg b).bind fun y => (parseReg c).map (mk x y)
  | _ => none

/-- A form with a register and an immediate. -/
def formImm (mk : Reg → Int → AsmLine) (ops : List (List Char)) : Option AsmLine :=
  match ops with
  | [a, b] => (parseReg a).bind fun x => (parseImm b).map (mk x)
  | _ => none

/-- The form a mnemonic introduces (R94, R95). -/
def parseForm (mn : List Char) (ops : List (List Char)) : Option AsmLine :=
  if mn = "CREATE".toList then formImm .create ops
  else if mn = "TOI32".toList then form1 .toi32 ops
  else if mn = "TOI64".toList then form1 .toi64 ops
  else if mn = "CMP".toList then form2 .cmp ops
  else if mn = "ADD".toList then form3 .add ops
  else if mn = "SUB".toList then form3 .sub ops
  else if mn = "INC".toList then formImm .inc ops
  else if mn = "DEC".toList then formImm .dec ops
  else if mn = "NEG".toList then form2 .neg ops
  else if mn = "MOV".toList then form2 .mov ops
  else if mn = "RDSGN".toList then form1 .rdsgn ops
  else if mn = "RDLEN".toList then form1 .rdlen ops
  else if mn = "RDLIMB".toList then formImm .rdlimb ops
  else if mn = "CLR".toList then form1 .clr ops
  else none

/-- Read one line: nothing where it holds only blanks and a comment, else the form it is (R94). -/
def parseLine (text : List Char) : Except AsmError (Option AsmLine) :=
  let t := trimBlanks (dropComment text)
  if t.isEmpty then .ok none
  else
    let mn := t.takeWhile fun c => !isBlank c
    let ops := (splitCommas (t.drop mn.length)).map trimBlanks
    match parseForm mn ops with
    | some l => .ok (some l)
    | none => .error .badForm

/-- A program: each line stands for one `(cmd, din)` pair, presented in order (R94). -/
def assembleProgram : List (List Char) → Except AsmError (List HostEvent)
  | [] => .ok []
  | text :: rest =>
    match parseLine text, assembleProgram rest with
    | .error e, _ => .error e
    | .ok none, r => r
    | .ok (some l), r =>
      match assemble l, r with
      | .error e, _ => .error e
      | .ok _, .error e => .error e
      | .ok i, .ok evs => .ok (.command (encodeWord i) (encodeDin i) :: evs)

end Sys2Proof.Machine
end

