-- ==== Sys2Proof/Safety.lean ====
section
/-!
DEFINITION. What claims are stated in: the invariants of 10_state.md R32, R34 and R39, frames, the conditions of the
faults as 30_encoding.md and 60_exceptions.md word them, and runs of the host's command sequence
(70_reset_and_hazards.md R279). The block has no memory (20_memory.md R60), so no frame speaks of one.
-/

namespace Sys2Proof.Machine

/-! ### Invariants -/

/-- Inv-M, its three clauses (10_state.md R32). -/
abbrev Mag.Inv (m : Mag) : Prop :=
  (∀ n : Fin 9, (∀ i : Fin 8, n.val ≤ i.val → m.limb[i] = 0) → m.len ≤ n) ∧
  (∀ i : Fin 8, i.val + 1 = m.len.val → m.limb[i] ≠ 0) ∧
  (∀ i : Fin 8, m.len.val ≤ i.val → m.limb[i] = 0)

/-- Inv-S, with Inv-M of its magnitude (10_state.md R34). -/
abbrev Value.Inv (x : Value) : Prop := x.mag.Inv ∧ (x.sgn = .zero ↔ x.mag.val = 0)

/-- Every value register meets Inv-M and Inv-S (10_state.md R36). -/
abbrev State.RegsInv (s : State) : Prop := ∀ r : Reg, (s.readV r).Inv

/-- `CAUSE` and `FOPC` are 0 while `FAULTED = 0`, and a fault taken has a cause, never the unreachable one
(10_state.md R39, 60_exceptions.md R240, R243). -/
abbrev Status.Inv (st : Status) : Prop :=
  (st.faulted = false → st.cause = none ∧ st.fopc = 0) ∧
  (st.faulted = true → st.cause = some .capacityOverflow ∨ st.cause = some .narrowingOverflow ∨
    st.cause = some .illegalCommand)

/-- The invariant of the whole state. -/
abbrev State.Inv (s : State) : Prop := s.RegsInv ∧ s.STATUS.Inv

/-! ### Frames -/

/-- From `s` to `t` nothing has changed but `V[r]` (10_state.md R37, 20_memory.md R68). -/
abbrev OnlyV (r : Reg) (s t : State) : Prop :=
  (∀ q : Reg, q ≠ r → t.readV q = s.readV q) ∧ t.RES = s.RES ∧ t.STATUS = s.STATUS ∧ t.host = s.host

/-- From `s` to `t` nothing has changed but `RES`. -/
abbrev OnlyRES (s t : State) : Prop :=
  (∀ q : Reg, t.readV q = s.readV q) ∧ t.STATUS = s.STATUS ∧ t.host = s.host

/-- From `s` to `t` the fault `c` of a command with opcode `opc` was taken, and nothing else changed
(60_exceptions.md R246). -/
abbrev FaultTaken (c : Cause) (opc : BitVec 6) (s t : State) : Prop :=
  (∀ q : Reg, t.readV q = s.readV q) ∧ t.RES = s.RES ∧ t.host = s.host ∧
  t.STATUS.faulted = true ∧ t.STATUS.cause = some c ∧ t.STATUS.fopc = opc

/-- The value register a command names as its destination, if any (the "writes" column of 30_encoding.md R89). -/
def dest : Instr → Option Reg
  | .create rd _ => some rd
  | .toi32 _ => none
  | .toi64 _ => none
  | .cmp _ _ => none
  | .add rd _ _ => some rd
  | .sub rd _ _ => some rd
  | .inc rd _ => some rd
  | .dec rd _ => some rd
  | .neg rd _ => some rd
  | .mov rd _ => some rd
  | .rdsgn _ => none
  | .rdlen _ => none
  | .rdlimb _ _ => none

/-! ### When commands fault, in the words of the spec -/

/-- The opcodes that use no `RD` field (30_encoding.md R89). -/
abbrev unusedRd (opc : BitVec 6) : Prop :=
  opc = 0x02 ∨ opc = 0x03 ∨ opc = 0x04 ∨ opc = 0x0B ∨ opc = 0x0C ∨ opc = 0x0D

/-- The opcodes that use no `RS1` field (30_encoding.md R89). -/
abbrev unusedRs1 (opc : BitVec 6) : Prop := opc = 0x01 ∨ opc = 0x07 ∨ opc = 0x08

/-- The opcodes that use neither `RS2` nor `K` (30_encoding.md R89). -/
abbrev unusedRs2 (opc : BitVec 6) : Prop :=
  opc = 0x01 ∨ opc = 0x02 ∨ opc = 0x03 ∨ opc = 0x07 ∨ opc = 0x08 ∨ opc = 0x09 ∨ opc = 0x0A ∨ opc = 0x0B ∨ opc = 0x0C

/-- The illegal commands, clause by clause (30_encoding.md R90). -/
abbrev Illegal (cmd : CmdWord) (din : Din) : Prop :=
  (cmd.extractLsb' 26 6 = 0x00#6 ∨ 0x0E#6 ≤ cmd.extractLsb' 26 6) ∨
  (cmd.extractLsb' 0 17 ≠ 0 ∨
    (unusedRd (cmd.extractLsb' 26 6) ∧ cmd.extractLsb' 23 3 ≠ 0) ∨
    (unusedRs1 (cmd.extractLsb' 26 6) ∧ cmd.extractLsb' 20 3 ≠ 0) ∨
    (unusedRs2 (cmd.extractLsb' 26 6) ∧ cmd.extractLsb' 17 3 ≠ 0)) ∨
  ((cmd.extractLsb' 26 6 = 0x07#6 ∨ cmd.extractLsb' 26 6 = 0x08#6) ∧ din.extractLsb' 32 32 ≠ 0)

/-- When a command's result would need more than `CAP` limbs (60_exceptions.md R241). -/
def overflowsCapacity (i : Instr) (s : State) : Prop :=
  match i with
  | .add _ rs1 rs2 =>
    (s.readV rs1).sgn = (s.readV rs2).sgn ∧ (s.readV rs1).sgn ≠ .zero ∧
      2 ^ 256 ≤ |(s.readV rs1).sval| + |(s.readV rs2).sval|
  | .sub _ rs1 rs2 =>
    (s.readV rs1).sgn ≠ (s.readV rs2).sgn ∧ (s.readV rs1).sgn ≠ .zero ∧ (s.readV rs2).sgn ≠ .zero ∧
      2 ^ 256 ≤ |(s.readV rs1).sval| + |(s.readV rs2).sval|
  | .inc rd din => 0 ≤ (s.readV rd).sval ∧ 2 ^ 256 ≤ (s.readV rd).sval + (din.toNat : Int)
  | .dec rd din => (s.readV rd).sval ≤ 0 ∧ 2 ^ 256 ≤ |(s.readV rd).sval| + (din.toNat : Int)
  | .create _ _ => False
  | .toi32 _ => False
  | .toi64 _ => False
  | .cmp _ _ => False
  | .neg _ _ => False
  | .mov _ _ => False
  | .rdsgn _ => False
  | .rdlen _ => False
  | .rdlimb _ _ => False

/-- When a narrowing conversion's value is outside its target's range (60_exceptions.md R242). -/
def overflowsNarrowing (i : Instr) (s : State) : Prop :=
  match i with
  | .toi32 rs1 => (s.readV rs1).sval < -2 ^ 31 ∨ 2 ^ 31 - 1 < (s.readV rs1).sval
  | .toi64 rs1 => (s.readV rs1).sval < -2 ^ 63 ∨ 2 ^ 63 - 1 < (s.readV rs1).sval
  | .create _ _ => False
  | .cmp _ _ => False
  | .add _ _ _ => False
  | .sub _ _ _ => False
  | .inc _ _ => False
  | .dec _ _ => False
  | .neg _ _ => False
  | .mov _ _ => False
  | .rdsgn _ => False
  | .rdlen _ => False
  | .rdlimb _ _ => False

/-! ### Runs -/

/-- The launch state of a run: the reset state with the host's events placed (70_reset_and_hazards.md R278, R279).
R279's run is one of commands alone. DESIGN CHOICE (log entry 14): the events may hold resets as well. -/
def launch (events : List HostEvent) : State := { State.reset with host := events }

/-- `k` steps from a state, ending at the first stop. It is `Host.Core.run` of this machine, written over `step`. -/
def run : Nat → State → Host.Outcome State Fault Refusal
  | 0, s => .next s
  | k + 1, s =>
    match step s with
    | .next t => run k t
    | .fault r => .fault r
    | .refused r => .refused r

/-- A run of `events` from reset ends successfully in `t`: every event was taken, and the block is in RUN
(70_reset_and_hazards.md R279). DESIGN CHOICE (log entry 14): R279 says this of a sequence of commands, in which no
command then faulted. For events with a reset among them the name is the model's: a fault before the reset does not
count, only where the last event leaves the block. -/
def EndsSuccessfully (events : List HostEvent) (t : State) : Prop :=
  run events.length (launch events) = .next t ∧ t.host = [] ∧ t.halted = false

/-- A run of `events` from reset ends in HALTED: event number `k` faults, its step leaves `t`, the later events are
never accepted, and no further step exists (70_reset_and_hazards.md R279). For events with a reset among them the name
is the model's (log entry 14). -/
def EndsHalted (events : List HostEvent) (k : Nat) (t : State) : Prop :=
  k < events.length ∧ run (k + 1) (launch events) = .next t ∧ t.halted = true ∧ t.host = events.drop (k + 1) ∧
    ∀ j, k + 1 < j → run j (launch events) = .fault .halted

end Sys2Proof.Machine
end

