-- ==== Sys2Proof/Certificates/Slice0/Obligations.lean ====
section
/-!
DEFINITION. The statements for the provers. A statement about a step reads the host's next event from the state
(log entry 1 says how the model holds the host's sequence). The block has no memory (20_memory.md R60): the frames
speak of every value register, `RES`, `STATUS` and the host's events, which is all of the state.
-/

open Sys2Proof Sys2Proof.Machine

/-! ### Reset and the invariants -/

/-- R49. Every piece of state after reset, and the outputs that show it. -/
def Obligations.ResetLeavesTheListedValues : Prop :=
  (∀ r : Reg, (State.reset.readV r).sgn = .zero ∧ (State.reset.readV r).mag.len = 0 ∧
    ∀ i : Fin 8, (State.reset.readV r).mag.limb[i] = 0) ∧
  State.reset.RES = 0 ∧ State.reset.statusOut = 0 ∧ State.reset.STATUS.faulted = false ∧
  State.reset.STATUS.cause = none ∧ State.reset.STATUS.fopc = 0 ∧
  State.reset.halted = false ∧ State.reset.cmdReady = true

/-- The invariant of the whole state holds at reset (R36, R39). -/
def Obligations.ResetMeetsTheInvariant : Prop := State.reset.Inv

/-- Every step keeps the invariant of the whole state: normalized magnitudes, one zero, and a STATUS that shows a
fault exactly when one was taken, never the unreachable one (R32, R34, R39, R243). A step with no event presented is
the model's own (log entry 2). -/
def Obligations.StepKeepsTheInvariant : Prop :=
  ∀ s t : State, s.Inv → step s = .next t → t.Inv

/-- R36. Every command keeps the registers' invariants, when it completes and when it faults; a fault writes no
register; reset meets them; so no register of any run ever breaks them. -/
def Obligations.NoRegisterEverBreaksItsInvariant : Prop :=
  (∀ i s t, s.RegsInv → exec i s = .next t → t.RegsInv) ∧
  (∀ cmd din s t, s.RegsInv → hostStep (.command cmd din) s = .next t → t.RegsInv) ∧
  (∀ cmd din s t, s.halted = false → hostStep (.command cmd din) s = .next t → t.halted = true →
    ∀ r : Reg, t.readV r = s.readV r) ∧
  State.reset.RegsInv ∧
  (∀ events k t, k ≤ events.length → run k (launch events) = .next t → t.RegsInv)

/-! ### Encoding and decoding -/

/-- Decoding the encoding of a well-formed command gives it back, at every register number, limb index and operand
(R82, R85, R89, R91, R94). -/
def Obligations.DecodeOfEncodeIsTheCommand : Prop :=
  ∀ i : Instr, i.wf = true → decode (encodeWord i) (encodeDin i) = .ok i

/-- A word that decodes is the word the encoder writes for that command, the command is well formed, and its operand
is the one presented or one it ignores (R85, R86, R89, R91): every word has one meaning. -/
def Obligations.EncodeOfDecodeIsTheWord : Prop :=
  ∀ cmd din i, decode cmd din = .ok i →
    encodeWord i = cmd ∧ i.wf = true ∧
    (i.mnemonic = .create ∨ i.mnemonic = .inc ∨ i.mnemonic = .dec → encodeDin i = din) ∧
    i.opcode = cmd.extractLsb' 26 6

/-- R90 and R244. The decoder refuses exactly the commands R90 lists; presented in RUN, each of them raises
IllegalCommand with the opcode as presented, and nothing else of it happens. -/
def Obligations.IllegalCommandsRaiseIllegalCommand : Prop :=
  (∀ cmd din, (∃ e, decode cmd din = .error e) ↔ Illegal cmd din) ∧
  ∀ cmd din s, s.halted = false → Illegal cmd din →
    ∃ t, hostStep (.command cmd din) s = .next t ∧
      FaultTaken .illegalCommand (cmd.extractLsb' 26 6) s t ∧ causeCode t.STATUS.cause = 4

/-- R89, its last sentence: no word matches two rows of the opcode map. -/
def Obligations.NoWordMatchesTwoRows : Prop :=
  ∀ (w : CmdWord) (p q : OpRow), p ∈ opcodeTable → q ∈ opcodeTable →
    w &&& p.mask = p.bits → w &&& q.mask = q.bits → p = q

/-- R96. The worked encodings, encoded and decoded, and assembled from their text. -/
def Obligations.WorkedEncodings : Prop :=
  (encode (.add 2 0 1) = (0x15020000#32, 0#64) ∧ decode 0x15020000#32 0#64 = .ok (.add 2 0 1)) ∧
  (encode (.inc 3 15#64) = (0x1D800000#32, 15#64) ∧ decode 0x1D800000#32 15#64 = .ok (.inc 3 15#64)) ∧
  (encode (.create 0 (-1)) = (0x04000000#32, 0xFFFFFFFFFFFFFFFF#64) ∧
    decode 0x04000000#32 0xFFFFFFFFFFFFFFFF#64 = .ok (.create 0 (-1))) ∧
  (encode (.rdlimb 5 7) = (0x345E0000#32, 0#64) ∧ decode 0x345E0000#32 0#64 = .ok (.rdlimb 5 7)) ∧
  assembleProgram ["ADD v2, v0, v1".toList, "INC v3, #15".toList, "CREATE v0, #-1".toList, "RDLIMB v5, #7".toList] =
    .ok [.command 0x15020000#32 0#64, .command 0x1D800000#32 15#64, .command 0x04000000#32 0xFFFFFFFFFFFFFFFF#64,
      .command 0x345E0000#32 0#64]

/-- Words of 95_test_vectors.md, one for each row R96 does not show. -/
def Obligations.WordsOfEveryFamilyDecode : Prop :=
  decode 0x08100000#32 0#64 = .ok (.toi32 1) ∧ decode 0x0C300000#32 0#64 = .ok (.toi64 3) ∧
  decode 0x10220000#32 0#64 = .ok (.cmp 2 1) ∧ decode 0x19A20000#32 0#64 = .ok (.sub 3 2 1) ∧
  decode 0x20800000#32 5#64 = .ok (.dec 1 5#64) ∧ decode 0x24000000#32 0#64 = .ok (.neg 0 0) ∧
  decode 0x28800000#32 0#64 = .ok (.mov 1 0) ∧ decode 0x2C400000#32 0#64 = .ok (.rdsgn 4) ∧
  decode 0x30200000#32 0#64 = .ok (.rdlen 2)

/-- R86, its last clause: a command other than CREATE, INC and DEC is decoded and executed alike whatever `din`
holds. -/
def Obligations.OtherCommandsIgnoreDin : Prop :=
  ∀ cmd din din' s, cmd.extractLsb' 26 6 ≠ 0x01#6 → cmd.extractLsb' 26 6 ≠ 0x07#6 →
    cmd.extractLsb' 26 6 ≠ 0x08#6 →
    decode cmd din = decode cmd din' ∧ hostStep (.command cmd din) s = hostStep (.command cmd din') s

/-- R95. CLR is CREATE with a zero immediate: its word, its operand and its assembled line, and it writes ZERO. -/
def Obligations.ClrWritesZero : Prop :=
  ∀ (d : Reg) (s : State),
    Instr.clr d = .create d 0 ∧ encodeWord (Instr.clr d) = 0x04000000#32 ||| BitVec.ofNat 32 d.val <<< 23 ∧
    encodeDin (Instr.clr d) = 0 ∧ assemble (.clr d) = .ok (Instr.clr d) ∧
    ∃ t, exec (Instr.clr d) s = .next t ∧ t.readV d = Value.zero ∧ OnlyV d s t

/-- R94. Each form without an immediate always stands for the command of its row, its operands in their places. A line
whose immediate is out of its form's range is never encoded; one in range stands for a command that carries that
integer. Every command a line stands for is well formed and decodes from its own words. -/
def Obligations.AssembledLinesDecode : Prop :=
  (∀ l i, assemble l = .ok i → i.wf = true ∧ decode (encodeWord i) (encodeDin i) = .ok i) ∧
  (∀ s : Reg, assemble (.toi32 s) = .ok (.toi32 s) ∧ assemble (.toi64 s) = .ok (.toi64 s) ∧
    assemble (.rdsgn s) = .ok (.rdsgn s) ∧ assemble (.rdlen s) = .ok (.rdlen s)) ∧
  (∀ s t : Reg, assemble (.cmp s t) = .ok (.cmp s t)) ∧
  (∀ d s : Reg, assemble (.neg d s) = .ok (.neg d s) ∧ assemble (.mov d s) = .ok (.mov d s)) ∧
  (∀ d s t : Reg, assemble (.add d s t) = .ok (.add d s t) ∧ assemble (.sub d s t) = .ok (.sub d s t)) ∧
  (∀ (d : Reg) (n : Int), -2 ^ 63 ≤ n ∧ n ≤ 2 ^ 63 - 1 →
    ∃ din : Din, assemble (.create d n) = .ok (.create d din) ∧ din.toInt = n) ∧
  (∀ (d : Reg) (n : Int), ¬ (-2 ^ 63 ≤ n ∧ n ≤ 2 ^ 63 - 1) →
    assemble (.create d n) = .error .immediateOutOfRange) ∧
  (∀ (d : Reg) (n : Int), 0 ≤ n ∧ n ≤ 2 ^ 32 - 1 →
    ∃ din : Din, assemble (.inc d n) = .ok (.inc d din) ∧ assemble (.dec d n) = .ok (.dec d din) ∧
      (din.toNat : Int) = n) ∧
  (∀ (d : Reg) (n : Int), ¬ (0 ≤ n ∧ n ≤ 2 ^ 32 - 1) →
    assemble (.inc d n) = .error .immediateOutOfRange ∧ assemble (.dec d n) = .error .immediateOutOfRange) ∧
  (∀ (r : Reg) (n : Int), 0 ≤ n ∧ n ≤ 7 →
    ∃ k : LimbIx, assemble (.rdlimb r n) = .ok (.rdlimb r k) ∧ (k.val : Int) = n) ∧
  (∀ (r : Reg) (n : Int), ¬ (0 ≤ n ∧ n ≤ 7) → assemble (.rdlimb r n) = .error .immediateOutOfRange)

/-! ### Steps, faults and HALTED -/

/-- In RUN, a step whose next event is a command that decodes to `i` is `exec i` with that event taken
(R81, R91). -/
def Obligations.StepRunsTheDecodedCommand : Prop :=
  ∀ s cmd din rest i, s.halted = false → s.host = .command cmd din :: rest → decode cmd din = .ok i →
    step s = exec i { s with host := rest }

/-- Every command ends, in a next state: no command stops the model (R81, R277). -/
def Obligations.EveryCommandEnds : Prop :=
  (∀ i s, ∃ t, exec i s = .next t) ∧
  ∀ cmd din s, s.halted = false → ∃ t, hostStep (.command cmd din) s = .next t

/-- Each event a step takes is followed by the host's next one, whatever the event did: no command transfers control
(R46, R93). That a reset (R250, R270), too, leaves the later events is the model's (log entry 4). -/
def Obligations.EveryEventIsFollowedByTheNext : Prop :=
  ∀ s t e rest, s.host = e :: rest → step s = .next t → t.host = rest

/-- R45. In RUN the block is ready and a command presented is accepted; in HALTED it is not ready, no command is
accepted, and it stays so through every run in which the host presents no reset. -/
def Obligations.HaltedAcceptsNoCommand : Prop :=
  (∀ s, s.halted = false → s.cmdReady = true ∧
    ∀ cmd din rest, s.host = .command cmd din :: rest → ∃ t, step s = .next t ∧ t.host = rest) ∧
  (∀ s, s.halted = true → s.cmdReady = false ∧
    (∀ cmd din rest, s.host = .command cmd din :: rest → step s = .fault .halted) ∧
    ∀ k t, (∀ e ∈ s.host, e ≠ .reset) → run k s = .next t → t.cmdReady = false)

/-- R40. Once a fault is recorded, STATUS keeps its value through every run up to the next reset, and the step that
leaves the record is a reset. -/
def Obligations.FaultRecordStaysUntilReset : Prop :=
  (∀ s t k, s.STATUS.faulted = true → (∀ e ∈ s.host, e ≠ .reset) → run k s = .next t → t.STATUS = s.STATUS) ∧
  (∀ s t, s.STATUS.faulted = true → step s = .next t → ∃ rest, s.host = .reset :: rest)

/-- R270. Reset gives the same state from any state with the same events to follow, RUN or HALTED, whatever ran
before; that state has the reset values; and in HALTED no other step exists. -/
def Obligations.ResetWorksFromEveryState : Prop :=
  (∀ s rest, s.host = .reset :: rest →
    ∃ t, step s = .next t ∧ (∀ r : Reg, t.readV r = Value.zero) ∧ t.RES = 0 ∧ t.statusOut = 0 ∧
      t.halted = false ∧ t.cmdReady = true ∧ t.host = rest) ∧
  (∀ s s' rest, s.host = .reset :: rest → s'.host = .reset :: rest → step s = step s') ∧
  (∀ s, s.halted = true → (∀ rest, s.host ≠ .reset :: rest) → step s = .fault .halted)

/-- R246. A fault is precise: the registers and RES are as before the command, STATUS records FAULTED, the cause and
the opcode as presented and nothing else, the block is not ready, and the later events are still to come. -/
def Obligations.FaultEntryIsPrecise : Prop :=
  ∀ s t cmd din rest, s.halted = false → s.host = .command cmd din :: rest → step s = .next t →
    t.halted = true →
    ∃ c : Cause,
      (∀ r : Reg, t.readV r = s.readV r) ∧ t.RES = s.RES ∧ t.host = rest ∧
      t.statusOut.extractLsb' 0 1 = 1 ∧ t.statusOut.extractLsb' 1 3 = 0 ∧
      t.statusOut.extractLsb' 4 4 = c.code ∧
      t.statusOut.extractLsb' 8 6 = cmd.extractLsb' 26 6 ∧ t.statusOut.extractLsb' 14 18 = 0 ∧
      t.cmdReady = false ∧ t.faultOut = true ∧
      (t = takeFault c (cmd.extractLsb' 26 6) { s with host := rest })

/-- The fields of STATUS stand where R39 puts them, CAUSE is one of the codes 0 to 4 and the reserved bits read 0,
whatever the state. -/
def Obligations.StatusFieldsAndReservedBits : Prop :=
  ∀ s : State,
    (s.statusOut.extractLsb' 0 1 = 1 ↔ s.STATUS.faulted = true) ∧ s.statusOut.extractLsb' 1 3 = 0 ∧
    s.statusOut.extractLsb' 4 4 = causeCode s.STATUS.cause ∧ causeCode s.STATUS.cause ≤ 4 ∧
    s.statusOut.extractLsb' 8 6 = s.STATUS.fopc ∧ s.statusOut.extractLsb' 14 18 = 0 ∧
    (s.cmdReady = false ↔ s.statusOut.extractLsb' 0 1 = 1)

/-- R39: no command writes STATUS but by its own fault entry, and no command reads it: with another STATUS before,
everything else after is the same, and STATUS after is the same too where a fault was taken, else kept. -/
def Obligations.StatusIsWrittenByFaultEntryOnly : Prop :=
  (∀ i s t, exec i s = .next t → t.STATUS = s.STATUS ∨ ∃ c, FaultTaken c i.opcode s t) ∧
  ∀ i s t st, exec i s = .next t →
    ∃ t', exec i { s with STATUS := st } = .next t' ∧ t'.V = t.V ∧ t'.RES = t.RES ∧ t'.host = t.host ∧
      (t'.STATUS = t.STATUS ∨ (t.STATUS = s.STATUS ∧ t'.STATUS = st))

/-- R38. Exactly six commands write RES; a fault does not; the output shows it; no command reads it. -/
def Obligations.ExactlySixCommandsWriteRes : Prop :=
  (∀ i : Instr, (∃ s t, exec i s = .next t ∧ t.RES ≠ s.RES) ↔
    (i.mnemonic = .toi32 ∨ i.mnemonic = .toi64 ∨ i.mnemonic = .cmp ∨ i.mnemonic = .rdsgn ∨ i.mnemonic = .rdlen ∨
      i.mnemonic = .rdlimb)) ∧
  (∀ cmd din s t, s.halted = false → hostStep (.command cmd din) s = .next t → t.halted = true → t.RES = s.RES) ∧
  (∀ s : State, s.resOut = s.RES) ∧
  ∀ i s t v, exec i s = .next t →
    ∃ t', exec i { s with RES := v } = .next t' ∧ t'.V = t.V ∧ t'.STATUS = t.STATUS ∧
      (t'.RES = t.RES ∨ (t.RES = s.RES ∧ t'.RES = v))

/-- R241. CapacityOverflow is raised by ADD, SUB, INC and DEC exactly under the conditions the rule lists, and by no
other command; it is recorded with code 1 and the command's opcode, and no result is written. -/
def Obligations.CapacityOverflowExactly : Prop :=
  ∀ i s, i.wf = true → s.RegsInv →
    (overflowsCapacity i s →
      ∃ t, exec i s = .next t ∧ FaultTaken .capacityOverflow i.opcode s t ∧ causeCode t.STATUS.cause = 1) ∧
    (¬ overflowsCapacity i s →
      ∃ t, exec i s = .next t ∧ (t.STATUS.cause = some .capacityOverflow → t.STATUS = s.STATUS))

/-- R242. NarrowingOverflow is raised by TOI32 and TOI64 exactly when the value is outside the target's range, and
by no other command; it is recorded with code 2 and opcode 0x02 or 0x03, and RES is not written. -/
def Obligations.NarrowingOverflowExactly : Prop :=
  ∀ i s, i.wf = true → s.RegsInv →
    (overflowsNarrowing i s →
      ∃ t, exec i s = .next t ∧ FaultTaken .narrowingOverflow i.opcode s t ∧ causeCode t.STATUS.cause = 2 ∧
        (t.STATUS.fopc = 0x02#6 ∨ t.STATUS.fopc = 0x03#6)) ∧
    (¬ overflowsNarrowing i s →
      ∃ t, exec i s = .next t ∧ (t.STATUS.cause = some .narrowingOverflow → t.STATUS = s.STATUS))

/-- R243. The subtractor and the decrementer raise PreconditionViolation exactly when the first operand is smaller,
and no command, and so no command sequence from reset, ever records it. -/
def Obligations.PreconditionViolationIsUnreachable : Prop :=
  (∀ a b : Mag, a.Inv → b.Inv → (magSub a b = .error .preconditionViolation ↔ a.val < b.val)) ∧
  (∀ (a : Mag) (v : Limb), a.Inv → (magDec a v = .error .preconditionViolation ↔ a.val < v.toNat)) ∧
  (∀ i s t, s.RegsInv → exec i s = .next t → t.STATUS.cause = some .preconditionViolation → t.STATUS = s.STATUS) ∧
  (∀ events k t, k ≤ events.length → run k (launch events) = .next t →
    t.STATUS.cause ≠ some .preconditionViolation)

/-- R279. A run of the host's finite command sequence from reset ends in one of two ways, never both: every command
completes and the block is in RUN, or some command faults, the block is HALTED, and the later ones are never
accepted. -/
def Obligations.RunEndsInRunOrAtItsFirstFault : Prop :=
  ∀ events : List HostEvent, (∀ e ∈ events, e ≠ .reset) →
    ((∃ t, EndsSuccessfully events t) ∨ (∃ k t, EndsHalted events k t)) ∧
    ¬ ((∃ t, EndsSuccessfully events t) ∧ (∃ k t, EndsHalted events k t))

/-- A model in HALTED is never at a successful end, and its outputs keep their values: the only next state a HALTED
block has is that of a reset, with the reset values (R247, R248, R270). That the host's later events stand behind the
reset is the model's (log entry 4), and so is a successful end of events with a reset among them (log entry 14). -/
def Obligations.HaltedIsNeverASuccessfulEnd : Prop :=
  (∀ events t, t.halted = true → ¬ EndsSuccessfully events t) ∧
  ∀ s t, s.halted = true → step s = .next t →
    ∃ rest, s.host = .reset :: rest ∧ t = launch rest

/-! ### What each command gives, and what it leaves unchanged -/

/-- CREATE completes on every operand and gives the normalized record of the signed 64-bit integer (R150, R153). -/
def Obligations.CreateGivesTheSignedOperand : Prop :=
  ∀ rd din s, ∃ t, exec (.create rd din) s = .next t ∧
    (t.readV rd).Inv ∧ (t.readV rd).sval = din.toInt ∧ OnlyV rd s t

/-- TOI32 completes on every value in the signed 32-bit range and gives that integer in RES (R154, R156, R88). -/
def Obligations.Toi32GivesTheInteger : Prop :=
  ∀ rs1 s, (s.readV rs1).Inv → -2 ^ 31 ≤ (s.readV rs1).sval → (s.readV rs1).sval ≤ 2 ^ 31 - 1 →
    ∃ t, exec (.toi32 rs1) s = .next t ∧ t.RES.toInt = (s.readV rs1).sval ∧ OnlyRES s t

/-- TOI64 completes on every value in the signed 64-bit range and gives that integer in RES (R154, R155, R88). -/
def Obligations.Toi64GivesTheInteger : Prop :=
  ∀ rs1 s, (s.readV rs1).Inv → -2 ^ 63 ≤ (s.readV rs1).sval → (s.readV rs1).sval ≤ 2 ^ 63 - 1 →
    ∃ t, exec (.toi64 rs1) s = .next t ∧ t.RES.toInt = (s.readV rs1).sval ∧ OnlyRES s t

/-- CMP completes on every pair of values and gives their order as -1, 0 or +1 in two's complement
(R170, R171, R88). -/
def Obligations.CmpGivesTheOrder : Prop :=
  ∀ rs1 rs2 s, (s.readV rs1).Inv → (s.readV rs2).Inv →
    ∃ t, exec (.cmp rs1 rs2) s = .next t ∧ OnlyRES s t ∧
      ((s.readV rs1).sval < (s.readV rs2).sval → t.RES = 0xFFFFFFFFFFFFFFFF#64) ∧
      ((s.readV rs1).sval = (s.readV rs2).sval → t.RES = 0#64) ∧
      ((s.readV rs2).sval < (s.readV rs1).sval → t.RES = 1#64)

/-- ADD completes whenever the sum fits the capacity, for any choice of registers, and gives the normalized record of
the integer sum of the old values (R180, R181, R274). -/
def Obligations.AddGivesTheSum : Prop :=
  ∀ rd rs1 rs2 s, (s.readV rs1).Inv → (s.readV rs2).Inv →
    |(s.readV rs1).sval + (s.readV rs2).sval| < 2 ^ 256 →
    ∃ t, exec (.add rd rs1 rs2) s = .next t ∧ (t.readV rd).Inv ∧
      (t.readV rd).sval = (s.readV rs1).sval + (s.readV rs2).sval ∧ OnlyV rd s t

/-- SUB completes whenever the difference fits the capacity, for any choice of registers, and gives the normalized
record of the integer difference of the old values (R183, R184, R274). -/
def Obligations.SubGivesTheDifference : Prop :=
  ∀ rd rs1 rs2 s, (s.readV rs1).Inv → (s.readV rs2).Inv →
    |(s.readV rs1).sval - (s.readV rs2).sval| < 2 ^ 256 →
    ∃ t, exec (.sub rd rs1 rs2) s = .next t ∧ (t.readV rd).Inv ∧
      (t.readV rd).sval = (s.readV rs1).sval - (s.readV rs2).sval ∧ OnlyV rd s t

/-- INC completes whenever the operand fits a limb and the sum fits the capacity, and gives the normalized record of
the old value plus `din[31:0]`, across zero too (R200, R201). -/
def Obligations.IncAddsItsOperand : Prop :=
  ∀ rd (din : Din) s, din.extractLsb' 32 32 = 0 → (s.readV rd).Inv →
    (s.readV rd).sval + ((din.extractLsb' 0 32).toNat : Int) < 2 ^ 256 →
    ∃ t, exec (.inc rd din) s = .next t ∧ (t.readV rd).Inv ∧
      (t.readV rd).sval = (s.readV rd).sval + ((din.extractLsb' 0 32).toNat : Int) ∧ OnlyV rd s t

/-- DEC completes whenever the operand fits a limb and the difference fits the capacity, and gives the normalized
record of the old value less `din[31:0]`, across zero too (R200, R202). -/
def Obligations.DecSubtractsItsOperand : Prop :=
  ∀ rd (din : Din) s, din.extractLsb' 32 32 = 0 → (s.readV rd).Inv →
    -2 ^ 256 < (s.readV rd).sval - ((din.extractLsb' 0 32).toNat : Int) →
    ∃ t, exec (.dec rd din) s = .next t ∧ (t.readV rd).Inv ∧
      (t.readV rd).sval = (s.readV rd).sval - ((din.extractLsb' 0 32).toNat : Int) ∧ OnlyV rd s t

/-- An INC or DEC whose operand has a nonzero upper half raises IllegalCommand with its own opcode and changes
nothing else (R86, R201, R202). -/
def Obligations.WideStepOperandIsIllegal : Prop :=
  ∀ rd (din : Din) s, din.extractLsb' 32 32 ≠ 0 →
    (∃ t, exec (.inc rd din) s = .next t ∧ FaultTaken .illegalCommand 0x07#6 s t) ∧
    (∃ t, exec (.dec rd din) s = .next t ∧ FaultTaken .illegalCommand 0x08#6 s t)

/-- NEG completes on every value, never overflows, and gives the negated integer (R186, R187). -/
def Obligations.NegGivesTheOpposite : Prop :=
  ∀ rd rs1 s, (s.readV rs1).Inv →
    ∃ t, exec (.neg rd rs1) s = .next t ∧ (t.readV rd).Inv ∧
      (t.readV rd).sval = -(s.readV rs1).sval ∧ OnlyV rd s t

/-- MOV completes always and copies the whole record, sign, length and limbs (R220). -/
def Obligations.MovCopiesTheRecord : Prop :=
  ∀ rd rs1 s, ∃ t, exec (.mov rd rs1) s = .next t ∧ t.readV rd = s.readV rs1 ∧ OnlyV rd s t ∧ (rd = rs1 → t = s)

/-- RDSGN completes always and gives the sign tag, the sign extension of its 2-bit code (R35, R88, R221). -/
def Obligations.RdsgnGivesTheSign : Prop :=
  ∀ rs1 s, ∃ t, exec (.rdsgn rs1) s = .next t ∧ OnlyRES s t ∧
    t.RES = (s.readV rs1).sgn.code.signExtend 64 ∧
    ((s.readV rs1).sgn = .neg → t.RES = 0xFFFFFFFFFFFFFFFF#64) ∧
    ((s.readV rs1).sgn = .zero → t.RES = 0#64) ∧ ((s.readV rs1).sgn = .pos → t.RES = 1#64)

/-- RDLEN completes always and gives the limb length, a value from 0 to 8 that is 0 exactly for the value zero
(R33, R88, R222). -/
def Obligations.RdlenGivesTheLength : Prop :=
  ∀ rs1 s, ∃ t, exec (.rdlen rs1) s = .next t ∧ OnlyRES s t ∧
    t.RES.toNat = (s.readV rs1).mag.len.val ∧ t.RES.toNat ≤ 8 ∧
    ((s.readV rs1).Inv → (t.RES = 0 ↔ (s.readV rs1).sval = 0)) ∧
    ((s.readV rs1).Inv → 2 ^ 224 ≤ |(s.readV rs1).sval| → t.RES = 8)

/-- RDLIMB completes always, for every index, and gives that limb zero-extended; above the length it gives 0
(R47, R88, R223). -/
def Obligations.RdlimbGivesTheLimb : Prop :=
  ∀ rs1 (k : LimbIx) s, ∃ t, exec (.rdlimb rs1 k) s = .next t ∧ OnlyRES s t ∧
    t.RES.extractLsb' 0 32 = (s.readV rs1).mag.limb[k] ∧ t.RES.extractLsb' 32 32 = 0 ∧
    ((s.readV rs1).mag.Inv → (s.readV rs1).mag.len.val ≤ k.val → t.RES = 0)

/-- R37. A command changes no register but its destination: a command that reads `V[a]` and writes `V[b]` leaves
`V[a]` unchanged, and one that writes none leaves all. -/
def Obligations.OnlyTheDestinationRegisterChanges : Prop :=
  (∀ i s t, exec i s = .next t → ∀ q : Reg, dest i ≠ some q → t.readV q = s.readV q) ∧
  (∀ (s : State) (r q : Reg) (x : Value), (s.writeV r x).readV q = if q = r then x else s.readV q)

/-- The sources are read before the destination is written: ADD of a register to itself in place doubles it, SUB of a
register from itself in place clears it, and in place on one side ADD and SUB use the old value (R274). -/
def Obligations.OperandsAreReadBeforeTheWrite : Prop :=
  ∀ (r q : Reg) s, (s.readV r).Inv → (s.readV q).Inv →
    (|2 * (s.readV r).sval| < 2 ^ 256 →
      ∃ t, exec (.add r r r) s = .next t ∧ (t.readV r).sval = 2 * (s.readV r).sval ∧ OnlyV r s t) ∧
    (∃ t, exec (.sub r r r) s = .next t ∧ t.readV r = Value.zero ∧ OnlyV r s t) ∧
    (|(s.readV q).sval - (s.readV r).sval| < 2 ^ 256 →
      ∃ t, exec (.sub r q r) s = .next t ∧ (t.readV r).sval = (s.readV q).sval - (s.readV r).sval ∧ OnlyV r s t)

/-- R224. The read-outs change only RES, and no result of any command, in a register, in RES or in STATUS, depends on
whether one ran before it. -/
def Obligations.ReadoutsChangeOnlyRes : Prop :=
  ∀ i s t, i.mnemonic = .rdsgn ∨ i.mnemonic = .rdlen ∨ i.mnemonic = .rdlimb → exec i s = .next t →
    OnlyRES s t ∧
    ∀ j u w, exec j s = .next u → exec j t = .next w → w.V = u.V ∧ w.STATUS = u.STATUS ∧
      (w.RES = u.RES ∨ (u.RES = s.RES ∧ w.RES = t.RES))

/-- The read-outs show the whole record: two registers that answer every read-out alike hold the same record
(R35, R224, R256). -/
def Obligations.ReadoutsDetermineTheRecord : Prop :=
  ∀ s s' (r r' : Reg),
    (∀ t t', exec (.rdsgn r) s = .next t → exec (.rdsgn r') s' = .next t' → t.RES = t'.RES) →
    (∀ t t', exec (.rdlen r) s = .next t → exec (.rdlen r') s' = .next t' → t.RES = t'.RES) →
    (∀ (k : LimbIx) t t', exec (.rdlimb r k) s = .next t → exec (.rdlimb r' k) s' = .next t' → t.RES = t'.RES) →
    s.readV r = s'.readV r'

/-! ### The magnitude engine -/

/-- R115. The adder adds: value, length and commutativity, faults included. -/
def Obligations.AdderAddsAndCommutes : Prop :=
  ∀ a b : Mag, a.Inv → b.Inv →
    (∀ r, magAdd a b = .ok r → r.val = a.val + b.val ∧
      (r.len.val = max a.len.val b.len.val ∨ r.len.val = max a.len.val b.len.val + 1)) ∧
    magAdd a b = magAdd b a

/-- R122. Every result of the engine is normalized, and so is every engine result a command stores. -/
def Obligations.EngineResultsAreNormalized : Prop :=
  (∀ a b r : Mag, a.Inv → b.Inv → magAdd a b = .ok r → r.Inv) ∧
  (∀ a b r : Mag, a.Inv → b.Inv → magSub a b = .ok r → r.Inv) ∧
  (∀ (a r : Mag) (v : Limb), a.Inv → magInc a v = .ok r → r.Inv) ∧
  (∀ (a r : Mag) (v : Limb), a.Inv → magDec a v = .ok r → r.Inv) ∧
  (∀ (m : Mag) (n : Nat), n ≤ 8 → (∀ i : Fin 8, n ≤ i.val → m.limb[i] = 0) → (normalizeBelow m n).Inv) ∧
  (∀ i s t rd, s.RegsInv → dest i = some rd → exec i s = .next t → (t.readV rd).mag.Inv)

/-- R124. The value of each function's result, and that a normalized record is fixed by its value. -/
def Obligations.EngineResultsHaveTheirValues : Prop :=
  (∀ a b r : Mag, a.Inv → b.Inv → magSub a b = .ok r → (r.val : Int) = (a.val : Int) - b.val) ∧
  (∀ (a r : Mag) (v : Limb), a.Inv → magInc a v = .ok r → r.val = a.val + v.toNat) ∧
  (∀ (a r : Mag) (v : Limb), a.Inv → magDec a v = .ok r → (r.val : Int) = (a.val : Int) - v.toNat) ∧
  (∀ (m : Mag) (n : Nat), (normalizeBelow m n).val = m.val) ∧
  (∀ a b : Mag, a.Inv → b.Inv → a.val = b.val → a = b)

/-- The adder and the incrementer overflow exactly when the sum reaches `2^256`, with no other fault
(R114, R118, R121). -/
def Obligations.EngineOverflowsExactlyAtCapacity : Prop :=
  (∀ a b : Mag, a.Inv → b.Inv → ∀ c, magAdd a b = .error c ↔ c = .capacityOverflow ∧ 2 ^ 256 ≤ a.val + b.val) ∧
  (∀ (a : Mag) (v : Limb), a.Inv → ∀ c,
    magInc a v = .error c ↔ c = .capacityOverflow ∧ 2 ^ 256 ≤ a.val + v.toNat)

/-- The comparators give the sign of the difference of the values; the single-limb one does so when `len` is at least
1 and gives -1 on an empty magnitude (R112, R113). -/
def Obligations.ComparatorsOrderByValue : Prop :=
  (∀ a b : Mag, a.Inv → b.Inv →
    (magCompare a b = .lt ↔ a.val < b.val) ∧ (magCompare a b = .eq ↔ a.val = b.val) ∧
    (magCompare a b = .gt ↔ b.val < a.val)) ∧
  (∀ (a : Mag) (v : Limb), a.Inv → 1 ≤ a.len.val →
    (magCompareSmall a v = .lt ↔ a.val < v.toNat) ∧ (magCompareSmall a v = .eq ↔ a.val = v.toNat) ∧
    (magCompareSmall a v = .gt ↔ v.toNat < a.val)) ∧
  (∀ (a : Mag) (v : Limb), a.len = 0 → magCompareSmall a v = .lt)

/-! ### Laws of the signed façade -/

/-- R8. The limb counts of the narrow targets, the largest magnitude, and the signed values a register can hold:
exactly the integers from `-(2^256 - 1)` to `2^256 - 1`, each in one record. -/
def Obligations.RegisterValuesAreExactlyTheRange : Prop :=
  Config.limbsOf 32 = 1 ∧ Config.limbsOf 64 = 2 ∧
  (∀ m : Mag, m.val ≤ 2 ^ 256 - 1) ∧ (∃ m : Mag, m.Inv ∧ m.val = 2 ^ 256 - 1) ∧
  (∀ x : Value, x.Inv → -(2 ^ 256 - 1) ≤ x.sval ∧ x.sval ≤ 2 ^ 256 - 1) ∧
  (∀ n : Int, -(2 ^ 256 - 1) ≤ n → n ≤ 2 ^ 256 - 1 → ∃ x : Value, x.Inv ∧ x.sval = n ∧
    ∀ y : Value, y.Inv → y.sval = n → y = x)

/-- R158. Creating a value and narrowing it back gives it, without a fault, over the whole of each range. -/
def Obligations.NarrowingOfCreateIsTheInteger : Prop :=
  (∀ v : Din, narrow (screate v) 64 = .ok v) ∧
  (∀ v : Din, -2 ^ 31 ≤ v.toInt → v.toInt ≤ 2 ^ 31 - 1 →
    ∃ r : BitVec 32, narrow (screate v) 32 = .ok r ∧ r.signExtend 64 = v)

/-- R172. The signed comparison is a total order on the values the block can hold. -/
def Obligations.ComparisonIsATotalOrder : Prop :=
  (∀ a : Value, a.Inv → scmp a a = .eq) ∧
  (∀ a b : Value, a.Inv → b.Inv → orderInt (scmp a b) = -orderInt (scmp b a)) ∧
  (∀ a b c : Value, a.Inv → b.Inv → c.Inv → orderInt (scmp a b) ≤ 0 → orderInt (scmp b c) ≤ 0 →
    orderInt (scmp a c) ≤ 0) ∧
  (∀ a b : Value, a.Inv → b.Inv → scmp a b = .eq → a = b)

/-- R188. The five laws of addition and subtraction, wherever no fault occurs; one side of the second may fault where
the other does not, the fourth includes the faults, and the fifth never faults. -/
def Obligations.AdditionAndSubtractionLaws : Prop :=
  (∀ a b r q : Value, a.Inv → b.Inv → sadd a b = .ok r → sadd b a = .ok q → r = q) ∧
  (∀ a b c ab bc r q : Value, a.Inv → b.Inv → c.Inv → sadd a b = .ok ab → sadd b c = .ok bc →
    sadd ab c = .ok r → sadd a bc = .ok q → r = q) ∧
  (∃ a b c bc r : Value, a.Inv ∧ b.Inv ∧ c.Inv ∧ sadd a b = .error .capacityOverflow ∧
    sadd b c = .ok bc ∧ sadd a bc = .ok r) ∧
  (∀ x : Value, x.Inv → ∃ y, ssub Value.zero x = .ok y ∧ sadd x y = .ok Value.zero) ∧
  (∀ a b : Value, ssub a b = sadd a (sneg b)) ∧
  (∀ x : Value, sadd x Value.zero = .ok x ∧ ssub x Value.zero = .ok x)

/-- R204. A step adds its value in its direction, and steps by the same value in the two directions undo each other,
across zero too. -/
def Obligations.IncrementAndDecrementAreInverse : Prop :=
  ∀ (x : Value) (v : Limb), x.Inv →
    (∀ d y, d ≠ .zero → sstep x v d = .ok y → y.sval = x.sval + d.toInt * (v.toNat : Int)) ∧
    (∀ y z, sstep x v .pos = .ok y → sstep y v .neg = .ok z → z = x) ∧
    (∀ y z, sstep x v .neg = .ok y → sstep y v .pos = .ok z → z = x)
end

