-- ==== Sys2Proof/Laws/PerInstr.lean ====
section
/-!
SUPPORT. Facts about each instruction as syntax. `RowOfWord`: the word the encoder writes for a command matches the
command's own row of the opcode map, and its fields read back (30_encoding.md R82, R89).
-/

namespace Sys2Proof.Laws.RowOfWord

/-- The encoded word matches the row of its mnemonic and carries its opcode. -/
def Statement (i : Instr) : Prop :=
  (findRow (encodeWord i)).map OpRow.mn = some i.mnemonic ∧ opcOf (encodeWord i) = i.opcode

theorem create (rd : Reg) (din : Din) : Statement (.create rd din) := by
  show (findRow (packWord 0x01 rd 0 0)).map OpRow.mn = some .create ∧
    opcOf (packWord 0x01 rd 0 0) = (Mnemonic.create).opcode
  revert rd; decide
theorem toi32 (rs1 : Reg) : Statement (.toi32 rs1) := by
  revert rs1; unfold Statement; decide
theorem toi64 (rs1 : Reg) : Statement (.toi64 rs1) := by
  revert rs1; unfold Statement; decide
theorem cmp (rs1 rs2 : Reg) : Statement (.cmp rs1 rs2) := by
  revert rs1 rs2; unfold Statement; decide
theorem add (rd rs1 rs2 : Reg) : Statement (.add rd rs1 rs2) := by
  revert rd rs1 rs2; unfold Statement; decide
theorem sub (rd rs1 rs2 : Reg) : Statement (.sub rd rs1 rs2) := by
  revert rd rs1 rs2; unfold Statement; decide
theorem inc (rd : Reg) (din : Din) : Statement (.inc rd din) := by
  show (findRow (packWord 0x07 rd 0 0)).map OpRow.mn = some .inc ∧
    opcOf (packWord 0x07 rd 0 0) = (Mnemonic.inc).opcode
  revert rd; decide
theorem dec (rd : Reg) (din : Din) : Statement (.dec rd din) := by
  show (findRow (packWord 0x08 rd 0 0)).map OpRow.mn = some .dec ∧
    opcOf (packWord 0x08 rd 0 0) = (Mnemonic.dec).opcode
  revert rd; decide
theorem neg (rd rs1 : Reg) : Statement (.neg rd rs1) := by
  revert rd rs1; unfold Statement; decide
theorem mov (rd rs1 : Reg) : Statement (.mov rd rs1) := by
  revert rd rs1; unfold Statement; decide
theorem rdsgn (rs1 : Reg) : Statement (.rdsgn rs1) := by
  revert rs1; unfold Statement; decide
theorem rdlen (rs1 : Reg) : Statement (.rdlen rs1) := by
  revert rs1; unfold Statement; decide
theorem rdlimb (rs1 : Reg) (k : LimbIx) : Statement (.rdlimb rs1 k) := by
  revert rs1 k; unfold Statement; decide

end Sys2Proof.Laws.RowOfWord
end

