-- ==== Sys2Proof/Laws/Decode.lean ====
section
/-!
SUPPORT. The decoder over numbers: a command word is its five fields, a field is a quotient and a remainder, and a
row's match is an equation on fields (30_encoding.md R82, R89).
-/

namespace Sys2Proof

theorem opcOf_toNat (cmd : CmdWord) : (opcOf cmd).toNat = cmd.toNat / 2 ^ 26 := by
  have := cmd.isLt
  simp only [opcOf, BitVec.extractLsb'_toNat, Nat.shiftRight_eq_div_pow]
  omega

theorem field3_val (cmd : CmdWord) (lo : Nat) : (field3 cmd lo).val = cmd.toNat / 2 ^ lo % 2 ^ 3 := by
  simp only [field3, BitVec.extractLsb'_toNat, Nat.shiftRight_eq_div_pow]

theorem rsvOf_toNat (cmd : CmdWord) : (rsvOf cmd).toNat = cmd.toNat % 2 ^ 17 := by
  simp only [rsvOf, BitVec.extractLsb'_toNat, Nat.shiftRight_zero]

/-- A word is its five fields (R82). -/
theorem cmd_toNat_eq_fields (cmd : CmdWord) :
    cmd.toNat = (opcOf cmd).toNat * 2 ^ 26 + (rdOf cmd).val * 2 ^ 23 + (rs1Of cmd).val * 2 ^ 20 +
      (rs2Of cmd).val * 2 ^ 17 + (rsvOf cmd).toNat := by
  have := cmd.isLt
  simp only [rdOf, rs1Of, rs2Of, field3_val, opcOf_toNat, rsvOf_toNat]
  omega

/-- Two words with the same fields are the same word. -/
theorem cmd_eq_of_fields {a b : CmdWord} (ho : opcOf a = opcOf b) (hd : rdOf a = rdOf b) (h1 : rs1Of a = rs1Of b)
    (h2 : rs2Of a = rs2Of b) (hr : rsvOf a = rsvOf b) : a = b := by
  apply BitVec.eq_of_toNat_eq
  rw [cmd_toNat_eq_fields a, cmd_toNat_eq_fields b, ho, hd, h1, h2, hr]

/-- The fields of a packed word are what was packed, and its reserved bits are zero (R82, R94). -/
theorem fields_of_packWord (opc : BitVec 6) (rd rs1 rs2 : Fin 8) :
    opcOf (packWord opc rd rs1 rs2) = opc ∧ rdOf (packWord opc rd rs1 rs2) = rd ∧
    rs1Of (packWord opc rd rs1 rs2) = rs1 ∧ rs2Of (packWord opc rd rs1 rs2) = rs2 ∧
    rsvOf (packWord opc rd rs1 rs2) = 0 := by
  have hn : (packWord opc rd rs1 rs2).toNat =
      opc.toNat * 2 ^ 26 + rd.val * 2 ^ 23 + rs1.val * 2 ^ 20 + rs2.val * 2 ^ 17 := by
    have ho := opc.isLt
    have hput : ∀ (n : Fin 8) (lo : Nat), lo ≤ 23 → (putField n lo).toNat = n.val * 2 ^ lo := by
      intro n lo hlo
      have hle : n.val * 2 ^ lo ≤ 7 * 2 ^ 23 :=
        Nat.mul_le_mul (by omega) (Nat.pow_le_pow_right (by omega) hlo)
      simp only [putField, BitVec.toNat_shiftLeft, BitVec.toNat_ofNat, Nat.shiftLeft_eq]
      rw [Nat.mod_eq_of_lt (show n.val < 2 ^ 32 by omega)]
      exact Nat.mod_eq_of_lt (by omega)
    have hopc : (opc.setWidth 32 <<< 26 : BitVec 32).toNat = opc.toNat * 2 ^ 26 := by
      simp only [BitVec.toNat_shiftLeft, BitVec.toNat_setWidth, Nat.shiftLeft_eq]
      omega
    have or_add : ∀ (x y k : Nat), y < 2 ^ k → x * 2 ^ k ||| y = x * 2 ^ k + y := by
      intro x y k h
      rw [Nat.mul_comm, Nat.two_pow_add_eq_or_of_lt h]
    simp only [packWord, BitVec.toNat_or, hopc, hput _ 23 (by omega), hput _ 20 (by omega), hput _ 17 (by omega)]
    rw [or_add _ _ 26 (by omega), show opc.toNat * 2 ^ 26 + rd.val * 2 ^ 23 = (opc.toNat * 2 ^ 3 + rd.val) * 2 ^ 23 by
      omega, or_add _ _ 23 (by omega),
      show (opc.toNat * 2 ^ 3 + rd.val) * 2 ^ 23 + rs1.val * 2 ^ 20 =
        ((opc.toNat * 2 ^ 3 + rd.val) * 2 ^ 3 + rs1.val) * 2 ^ 20 by omega, or_add _ _ 20 (by omega)]
  have ho := opc.isLt
  refine ⟨?_, ?_, ?_, ?_, ?_⟩
  · apply BitVec.eq_of_toNat_eq; rw [opcOf_toNat, hn]; omega
  · apply Fin.ext; rw [rdOf, field3_val, hn]; omega
  · apply Fin.ext; rw [rs1Of, field3_val, hn]; omega
  · apply Fin.ext; rw [rs2Of, field3_val, hn]; omega
  · apply BitVec.eq_of_toNat_eq; rw [rsvOf_toNat, hn]; simp; omega

/-- Two words are equal when their five bit fields are. -/
theorem cmd_eq_iff (a b : CmdWord) : a = b ↔
    a.extractLsb' 26 6 = b.extractLsb' 26 6 ∧ a.extractLsb' 23 3 = b.extractLsb' 23 3 ∧
    a.extractLsb' 20 3 = b.extractLsb' 20 3 ∧ a.extractLsb' 17 3 = b.extractLsb' 17 3 ∧
    a.extractLsb' 0 17 = b.extractLsb' 0 17 := by
  constructor
  · rintro rfl; exact ⟨rfl, rfl, rfl, rfl, rfl⟩
  · rintro ⟨h1, h2, h3, h4, h5⟩
    have hf : ∀ lo, a.extractLsb' lo 3 = b.extractLsb' lo 3 → field3 a lo = field3 b lo := fun lo h => by
      simp only [field3, h]
    exact cmd_eq_of_fields h1 (hf 23 h2) (hf 20 h3) (hf 17 h4) h5

/-- A masked match is a masked match of each field (R85, R89). -/
theorem masked_eq_iff (w m b : CmdWord) : w &&& m = b ↔
    w.extractLsb' 26 6 &&& m.extractLsb' 26 6 = b.extractLsb' 26 6 ∧
    w.extractLsb' 23 3 &&& m.extractLsb' 23 3 = b.extractLsb' 23 3 ∧
    w.extractLsb' 20 3 &&& m.extractLsb' 20 3 = b.extractLsb' 20 3 ∧
    w.extractLsb' 17 3 &&& m.extractLsb' 17 3 = b.extractLsb' 17 3 ∧
    w.extractLsb' 0 17 &&& m.extractLsb' 0 17 = b.extractLsb' 0 17 := by
  rw [cmd_eq_iff]
  simp only [BitVec.extractLsb'_and]

theorem and_ones6 (x : BitVec 6) : x &&& 0x3F#6 = x := by revert x; decide
theorem and_ones3 (x : BitVec 3) : x &&& 0x7#3 = x := by revert x; decide
theorem and_ones17 (x : BitVec 17) : x &&& 0x1FFFF#17 = x := by
  rw [show 0x1FFFF#17 = BitVec.allOnes 17 by decide, BitVec.and_allOnes]

/-- What a row's match and mask mean: the row's opcode, and zero in `RSV` and in the fields it does not use
(R85, R89). -/
theorem row_match_iff (cmd : CmdWord) {row : OpRow} (h : row ∈ opcodeTable) :
    cmd &&& row.mask = row.bits ↔
      cmd.extractLsb' 26 6 = row.opc ∧ cmd.extractLsb' 0 17 = 0#17 ∧
      (Machine.unusedRd row.opc → cmd.extractLsb' 23 3 = 0#3) ∧
      (Machine.unusedRs1 row.opc → cmd.extractLsb' 20 3 = 0#3) ∧
      (Machine.unusedRs2 row.opc → cmd.extractLsb' 17 3 = 0#3) := by
  rw [masked_eq_iff]
  simp only [opcodeTable, List.mem_cons, List.not_mem_nil, or_false] at h
  rcases h with rfl | rfl | rfl | rfl | rfl | rfl | rfl | rfl | rfl | rfl | rfl | rfl | rfl <;>
  simp [and_ones6, and_ones3, and_ones17] <;> tauto

/-- A row found is a row of the table that the word matches. -/
theorem findRow_some {cmd : CmdWord} {row : OpRow} (h : findRow cmd = some row) :
    row ∈ opcodeTable ∧ cmd &&& row.mask = row.bits := by
  unfold findRow at h
  exact ⟨List.mem_of_find?_eq_some h, by simpa [OpRow.hits] using List.find?_some h⟩

/-- No row is found where no row matches. -/
theorem findRow_none {cmd : CmdWord} (h : findRow cmd = none) : ∀ row ∈ opcodeTable, cmd &&& row.mask ≠ row.bits := by
  intro row hr he
  have := List.find?_eq_none.mp h row hr
  exact this (by simpa [OpRow.hits] using he)

/-- The table's opcodes are those of its mnemonics. -/
theorem opcodeTable_opc : ∀ row ∈ opcodeTable, row.opc = row.mn.opcode := by decide

/-- An opcode belongs to one row at most. -/
theorem row_eq_of_opc : ∀ p ∈ opcodeTable, ∀ q ∈ opcodeTable, p.opc = q.opc → p = q := by decide

/-- The unassigned opcodes are 0x00 and 0x0E to 0x3F. -/
theorem opc_assigned_iff (o : BitVec 6) :
    (∃ row ∈ opcodeTable, row.opc = o) ↔ ¬ (o = 0x00#6 ∨ 0x0E#6 ≤ o) := by
  revert o; decide

/-- The rows whose operand is one limb are those of INC and DEC. -/
theorem takesLimb_iff : ∀ row ∈ opcodeTable, row.mn.takesLimb = true ↔ row.opc = 0x07#6 ∨ row.opc = 0x08#6 := by
  decide

/-- A word that decodes matches a row, and the command is the one the row builds. -/
theorem decode_ok_row {cmd : CmdWord} {din : Din} {i : Instr} (h : decode cmd din = .ok i) :
    ∃ row ∈ opcodeTable, cmd &&& row.mask = row.bits ∧ i = buildInstr row.mn cmd din ∧
      (row.mn.takesLimb = true → dinFitsLimb din = true) := by
  unfold decode at h
  cases hf : findRow cmd with
  | none => rw [hf] at h; simp only at h; split at h <;> cases h
  | some row =>
    obtain ⟨h1, h2⟩ := findRow_some hf
    rw [hf] at h; simp only at h; split at h
    · cases h
    · rename_i hc
      cases h
      exact ⟨row, h1, h2, rfl, fun ht => by simpa [ht] using hc⟩

/-- Which words are packed from given fields. -/
theorem packWord_eq_iff (cmd : CmdWord) (o : BitVec 6) (rd rs1 rs2 : Fin 8) : packWord o rd rs1 rs2 = cmd ↔
    opcOf cmd = o ∧ rdOf cmd = rd ∧ rs1Of cmd = rs1 ∧ rs2Of cmd = rs2 ∧ rsvOf cmd = 0 := by
  have fp := fields_of_packWord o rd rs1 rs2
  constructor
  · rintro rfl; exact fp
  · rintro ⟨h1, h2, h3, h4, h5⟩
    exact cmd_eq_of_fields (fp.1.trans h1.symm) (fp.2.1.trans h2.symm) (fp.2.2.1.trans h3.symm)
      (fp.2.2.2.1.trans h4.symm) (fp.2.2.2.2.trans h5.symm)

/-- A field of zero bits is the number zero. -/
theorem field3_zero {cmd : CmdWord} {lo : Nat} (h : cmd.extractLsb' lo 3 = 0#3) : field3 cmd lo = 0 := by
  apply Fin.ext
  show (cmd.extractLsb' lo 3).toNat = 0
  rw [h]; rfl

end Sys2Proof
end

