-- ==== Sys2Proof/Laws/State.lean ====
section
/-!
SUPPORT. The small lemmas of the state and of its named operations: one per field per update, so that no later
proof unfolds a record update.
-/

namespace Sys2Proof.Machine

/-! ### Value registers, `RES`, `STATUS`, `host` -/

@[simp] theorem readV_writeV_same (s : State) (r : Reg) (x : Value) : (s.writeV r x).readV r = x := by
  simp [State.readV, State.writeV]

@[simp] theorem readV_writeV_ne (s : State) (r q : Reg) (x : Value) (h : q ≠ r) :
    (s.writeV r x).readV q = s.readV q := by
  have h' : r.val ≠ q.val := fun e => h (Fin.ext e.symm)
  simp [State.readV, State.writeV, Vector.getElem_set_ne _ _ h']

theorem readV_writeV (s : State) (r q : Reg) (x : Value) :
    (s.writeV r x).readV q = if q = r then x else s.readV q := by
  by_cases h : q = r
  · subst h; simp
  · simp [h]

@[simp] theorem writeV_RES (s : State) (r : Reg) (x : Value) : (s.writeV r x).RES = s.RES := rfl
@[simp] theorem writeV_STATUS (s : State) (r : Reg) (x : Value) : (s.writeV r x).STATUS = s.STATUS := rfl
@[simp] theorem writeV_host (s : State) (r : Reg) (x : Value) : (s.writeV r x).host = s.host := rfl
@[simp] theorem writeV_halted (s : State) (r : Reg) (x : Value) : (s.writeV r x).halted = s.halted := rfl

@[simp] theorem writeRES_RES (s : State) (v : BitVec 64) : (s.writeRES v).RES = v := rfl
@[simp] theorem writeRES_V (s : State) (v : BitVec 64) : (s.writeRES v).V = s.V := rfl
@[simp] theorem writeRES_STATUS (s : State) (v : BitVec 64) : (s.writeRES v).STATUS = s.STATUS := rfl
@[simp] theorem writeRES_host (s : State) (v : BitVec 64) : (s.writeRES v).host = s.host := rfl
@[simp] theorem writeRES_halted (s : State) (v : BitVec 64) : (s.writeRES v).halted = s.halted := rfl
@[simp] theorem readV_writeRES (s : State) (v : BitVec 64) (q : Reg) : (s.writeRES v).readV q = s.readV q := rfl

@[simp] theorem takeFault_V (c : Cause) (o : BitVec 6) (s : State) : (takeFault c o s).V = s.V := rfl
@[simp] theorem takeFault_RES (c : Cause) (o : BitVec 6) (s : State) : (takeFault c o s).RES = s.RES := rfl
@[simp] theorem takeFault_host (c : Cause) (o : BitVec 6) (s : State) : (takeFault c o s).host = s.host := rfl
@[simp] theorem takeFault_STATUS (c : Cause) (o : BitVec 6) (s : State) :
    (takeFault c o s).STATUS = { faulted := true, cause := some c, fopc := o } := rfl
@[simp] theorem takeFault_halted (c : Cause) (o : BitVec 6) (s : State) : (takeFault c o s).halted = true := rfl
@[simp] theorem readV_takeFault (c : Cause) (o : BitVec 6) (s : State) (q : Reg) :
    (takeFault c o s).readV q = s.readV q := rfl

@[simp] theorem resetBlock_V (s : State) : (resetBlock s).V = State.reset.V := rfl
@[simp] theorem resetBlock_RES (s : State) : (resetBlock s).RES = 0 := rfl
@[simp] theorem resetBlock_STATUS (s : State) : (resetBlock s).STATUS = Status.clear := rfl
@[simp] theorem resetBlock_host (s : State) : (resetBlock s).host = s.host := rfl
@[simp] theorem resetBlock_halted (s : State) : (resetBlock s).halted = false := rfl
@[simp] theorem readV_reset (r : Reg) : State.reset.readV r = Value.zero := by
  simp [State.readV, State.reset]
@[simp] theorem readV_resetBlock (s : State) (r : Reg) : (resetBlock s).readV r = Value.zero :=
  readV_reset r

@[simp] theorem setHost_V (s : State) (h : List HostEvent) : ({ s with host := h } : State).V = s.V := rfl
@[simp] theorem setHost_RES (s : State) (h : List HostEvent) : ({ s with host := h } : State).RES = s.RES := rfl
@[simp] theorem setHost_STATUS (s : State) (h : List HostEvent) :
    ({ s with host := h } : State).STATUS = s.STATUS := rfl
@[simp] theorem setHost_halted (s : State) (h : List HostEvent) :
    ({ s with host := h } : State).halted = s.halted := rfl
@[simp] theorem readV_setHost (s : State) (h : List HostEvent) (q : Reg) :
    ({ s with host := h } : State).readV q = s.readV q := rfl

/-- Two states with the same registers, `RES`, `STATUS` and host events are equal. -/
theorem State.ext_readV {s t : State} (hV : ∀ r, s.readV r = t.readV r) (hR : s.RES = t.RES)
    (hS : s.STATUS = t.STATUS) (hH : s.host = t.host) : s = t := by
  obtain ⟨V, R, S, H⟩ := s
  obtain ⟨V', R', S', H'⟩ := t
  have : V = V' := Vector.ext fun i hi => hV ⟨i, hi⟩
  simp_all

/-! ### Limbs and lengths -/

theorem limbAt_of_lt (m : Mag) {i : Nat} (h : i < 8) : m.limbAt i = m.limb[i] := by
  simp [Mag.limbAt, Vector.getD, h]

theorem limbAt_fin (m : Mag) (i : Fin 8) : m.limb[i] = m.limbAt i.val := (limbAt_of_lt m i.isLt).symm

theorem limbAt_of_ge (m : Mag) {i : Nat} (h : 8 ≤ i) : m.limbAt i = 0 := by
  simp [Mag.limbAt, Vector.getD, h]

theorem limbAt_putLimb (m : Mag) (i j : Nat) (v : Limb) :
    (m.putLimb i v).limbAt j = if i = j ∧ i < 8 then v else m.limbAt j := by
  by_cases hj : j < 8
  · rw [limbAt_of_lt _ hj, limbAt_of_lt _ hj]
    simp only [Mag.putLimb, Vector.getElem_setIfInBounds]
    by_cases hij : i = j <;> simp [hij, hj]
  · have h8 : 8 ≤ j := by omega
    rw [limbAt_of_ge _ h8, limbAt_of_ge _ h8, if_neg (by omega)]

@[simp] theorem limbAt_putLimb_same (m : Mag) {i : Nat} (v : Limb) (h : i < 8) :
    (m.putLimb i v).limbAt i = v := by
  simp [limbAt_putLimb, h]

@[simp] theorem limbAt_putLimb_ne (m : Mag) {i j : Nat} (v : Limb) (h : j ≠ i) :
    (m.putLimb i v).limbAt j = m.limbAt j := by
  simp [limbAt_putLimb, h.symm]

@[simp] theorem len_putLimb (m : Mag) (i : Nat) (v : Limb) : (m.putLimb i v).len = m.len := rfl
@[simp] theorem limbAt_setLen (m : Mag) (n i : Nat) : (m.setLen n).limbAt i = m.limbAt i := rfl
theorem len_setLen (m : Mag) {n : Nat} (h : n ≤ 8) : (m.setLen n).len.val = n := by
  simp only [Mag.setLen, Fin.val_ofNat]
  omega
@[simp] theorem len_zero : Mag.zero.len = 0 := rfl
@[simp] theorem limbAt_zero (i : Nat) : Mag.zero.limbAt i = 0 := by
  by_cases h : i < 8
  · simp [limbAt_of_lt _ h, Mag.zero]
  · exact limbAt_of_ge _ (by omega)

/-- A magnitude record is its length and its limbs. -/
theorem Mag.ext_limbAt {a b : Mag} (hl : a.len = b.len) (h : ∀ i < 8, a.limbAt i = b.limbAt i) : a = b := by
  obtain ⟨l, v⟩ := a
  obtain ⟨l', v'⟩ := b
  have : v = v' := Vector.ext fun i hi => by simpa [limbAt_of_lt, hi] using h i hi
  simp_all

end Sys2Proof.Machine
end

