-- ==== Sys2Proof/Laws/Magnitude.lean ====
section
/-!
SUPPORT. What each function of the magnitude engine can do, said once (40_magnitude_engine.md R112 to R124).
-/

namespace Sys2Proof.Machine

/-! ### Values of limb rows -/

theorem limb_lt (m : Mag) (i : Nat) : (m.limbAt i).toNat < 2 ^ 32 := (m.limbAt i).isLt

theorem pow32_succ (n : Nat) : 2 ^ (32 * (n + 1)) = 2 ^ (32 * n) * 2 ^ 32 := by
  rw [← Nat.pow_add]; congr 1

@[simp] theorem valBelow_zero (m : Mag) : m.valBelow 0 = 0 := rfl

theorem valBelow_succ (m : Mag) (n : Nat) :
    m.valBelow (n + 1) = m.valBelow n + (m.limbAt n).toNat * 2 ^ (32 * n) := by
  rw [Mag.valBelow, Nat.mul_comm]

theorem valBelow_lt (m : Mag) (n : Nat) : m.valBelow n < 2 ^ (32 * n) := by
  induction n with
  | zero => simp
  | succ n ih =>
    have hl := limb_lt m n
    have : (m.limbAt n).toNat * 2 ^ (32 * n) ≤ (2 ^ 32 - 1) * 2 ^ (32 * n) := Nat.mul_le_mul_right _ (by omega)
    rw [valBelow_succ, pow32_succ]
    omega

theorem valBelow_congr {a b : Mag} {n : Nat} (h : ∀ i < n, a.limbAt i = b.limbAt i) :
    a.valBelow n = b.valBelow n := by
  induction n with
  | zero => rfl
  | succ n ih =>
    rw [valBelow_succ, valBelow_succ, ih fun i hi => h i (by omega), h n (by omega)]

/-- Limbs that are zero add nothing. -/
theorem valBelow_of_zero {m : Mag} {n k : Nat} (hnk : n ≤ k) (h : ∀ i, n ≤ i → i < k → m.limbAt i = 0) :
    m.valBelow k = m.valBelow n := by
  induction k, hnk using Nat.le_induction with
  | base => rfl
  | succ k hk ih =>
    rw [valBelow_succ, h k hk (by omega), ih fun i h1 h2 => h i h1 (by omega)]
    simp

theorem valBelow_mono (m : Mag) {n k : Nat} (h : n ≤ k) : m.valBelow n ≤ m.valBelow k := by
  induction k, h using Nat.le_induction with
  | base => exact Nat.le_refl _
  | succ k _ ih => rw [valBelow_succ]; omega

/-- A value below `2^(32 n)` has no nonzero limb at `n` or above. -/
theorem limbAt_eq_zero_of_val_lt {m : Mag} {n k : Nat} (h : m.valBelow k < 2 ^ (32 * n)) {j : Nat} (hn : n ≤ j)
    (hk : j < k) : m.limbAt j = 0 := by
  by_contra hne
  have hpos : 1 ≤ (m.limbAt j).toNat := by
    rcases Nat.eq_zero_or_pos (m.limbAt j).toNat with h0 | h0
    · exact absurd (BitVec.eq_of_toNat_eq (by simpa using h0)) hne
    · exact h0
  have h1 : m.valBelow (j + 1) ≤ m.valBelow k := valBelow_mono m hk
  rw [valBelow_succ] at h1
  have h2 : 1 * 2 ^ (32 * j) ≤ (m.limbAt j).toNat * 2 ^ (32 * j) := Nat.mul_le_mul_right _ hpos
  have h3 : 2 ^ (32 * n) ≤ 2 ^ (32 * j) := Nat.pow_le_pow_right (by omega) (by omega)
  omega

/-- The limbs below `n` are fixed by their value. -/
theorem limbs_eq_of_valBelow_eq {a b : Mag} {n : Nat} (h : a.valBelow n = b.valBelow n) :
    ∀ i < n, a.limbAt i = b.limbAt i := by
  induction n with
  | zero => intro i hi; omega
  | succ n ih =>
    rw [valBelow_succ, valBelow_succ] at h
    have ha := valBelow_lt a n
    have hb := valBelow_lt b n
    have hp : 0 < 2 ^ (32 * n) := Nat.pow_pos (by omega)
    have hq : (a.limbAt n).toNat = (b.limbAt n).toNat := by
      have e1 : (a.valBelow n + (a.limbAt n).toNat * 2 ^ (32 * n)) / 2 ^ (32 * n) = (a.limbAt n).toNat := by
        rw [Nat.add_mul_div_right _ _ hp, Nat.div_eq_of_lt ha, Nat.zero_add]
      have e2 : (b.valBelow n + (b.limbAt n).toNat * 2 ^ (32 * n)) / 2 ^ (32 * n) = (b.limbAt n).toNat := by
        rw [Nat.add_mul_div_right _ _ hp, Nat.div_eq_of_lt hb, Nat.zero_add]
      rw [← e1, ← e2, h]
    have hr : a.valBelow n = b.valBelow n := by rw [hq] at h; omega
    intro i hi
    rcases Nat.lt_succ_iff_lt_or_eq.mp hi with h1 | rfl
    · exact ih hr i h1
    · exact BitVec.eq_of_toNat_eq hq

/-! ### The invariant -/

/-- Inv-M in terms of `limbAt`. -/
theorem Mag.inv_iff (m : Mag) :
    m.Inv ↔ (∀ i, m.len.val ≤ i → m.limbAt i = 0) ∧ (0 < m.len.val → m.limbAt (m.len.val - 1) ≠ 0) := by
  constructor
  · rintro ⟨-, h2, h3⟩
    refine ⟨fun i hi => ?_, fun hpos => ?_⟩
    · by_cases h8 : i < 8
      · rw [limbAt_of_lt _ h8]; exact h3 ⟨i, h8⟩ hi
      · exact limbAt_of_ge _ (by omega)
    · have hl := m.len.isLt
      have := h2 ⟨m.len.val - 1, by omega⟩ (by simp only; omega)
      rwa [limbAt_fin] at this
  · rintro ⟨hz, ht⟩
    refine ⟨fun n hn => ?_, fun i hi => ?_, fun i hi => ?_⟩
    · by_contra hlt
      have hlt' : n.val < m.len.val := Fin.not_le.mp hlt
      have hl := m.len.isLt
      have := hn ⟨m.len.val - 1, by omega⟩ (by simp only; omega)
      rw [limbAt_fin] at this
      exact ht (by omega) this
    · rw [limbAt_fin]
      have : i.val = m.len.val - 1 := by omega
      rw [this]; exact ht (by omega)
    · rw [limbAt_fin]; exact hz _ hi

theorem Mag.len_le (m : Mag) : m.len.val ≤ 8 := by have := m.len.isLt; omega

theorem Mag.Inv.limb_zero {m : Mag} (h : m.Inv) {i : Nat} (hi : m.len.val ≤ i) : m.limbAt i = 0 :=
  (m.inv_iff.mp h).1 i hi

theorem Mag.Inv.top_ne {m : Mag} (h : m.Inv) (hi : 0 < m.len.val) : m.limbAt (m.len.val - 1) ≠ 0 :=
  (m.inv_iff.mp h).2 hi

theorem Mag.Inv.val_eq {m : Mag} (h : m.Inv) {n : Nat} (hn : m.len.val ≤ n) (h8 : n ≤ 8) :
    m.val = m.valBelow n :=
  valBelow_of_zero h8 fun _ hi _ => h.limb_zero (by omega)

theorem Mag.val_def (m : Mag) : m.val = m.valBelow 8 := rfl

theorem Mag.val_lt (m : Mag) : m.val < 2 ^ 256 := valBelow_lt m 8

theorem Mag.Inv.val_lt_len {m : Mag} (h : m.Inv) : m.val < 2 ^ (32 * m.len.val) := by
  rw [h.val_eq (Nat.le_refl _) m.len_le]; exact valBelow_lt m _

theorem toNat_pos_of_ne {v : Limb} (h : v ≠ 0) : 0 < v.toNat := by
  rcases Nat.eq_zero_or_pos v.toNat with h0 | h0
  · exact absurd (BitVec.eq_of_toNat_eq (by simpa using h0)) h
  · exact h0

theorem Mag.Inv.le_val {m : Mag} (h : m.Inv) (hpos : 0 < m.len.val) : 2 ^ (32 * (m.len.val - 1)) ≤ m.val := by
  have h1 := toNat_pos_of_ne (h.top_ne hpos)
  have h2 : 1 * 2 ^ (32 * (m.len.val - 1)) ≤ (m.limbAt (m.len.val - 1)).toNat * 2 ^ (32 * (m.len.val - 1)) :=
    Nat.mul_le_mul_right _ h1
  have h3 := valBelow_succ m (m.len.val - 1)
  rw [h.val_eq (Nat.le_refl _) m.len_le]
  rw [Nat.sub_add_cancel hpos] at h3
  omega

theorem Mag.Inv.len_eq_zero_iff {m : Mag} (h : m.Inv) : m.len.val = 0 ↔ m.val = 0 := by
  constructor
  · intro h0; rw [h.val_eq (Nat.le_refl _) m.len_le, h0]; rfl
  · intro h0
    by_contra hne
    have := h.le_val (by omega)
    have : 0 < 2 ^ (32 * (m.len.val - 1)) := Nat.pow_pos (by omega)
    omega

theorem Mag.Inv.len_mono {a b : Mag} (ha : a.Inv) (hb : b.Inv) (h : a.len.val < b.len.val) : a.val < b.val := by
  have h1 := ha.val_lt_len
  have h2 := hb.le_val (by omega)
  have h3 : 2 ^ (32 * a.len.val) ≤ 2 ^ (32 * (b.len.val - 1)) := Nat.pow_le_pow_right (by omega) (by omega)
  omega

/-- A record that meets Inv-M is fixed by its value (R124). -/
theorem Mag.Inv.eq_of_val_eq {a b : Mag} (ha : a.Inv) (hb : b.Inv) (h : a.val = b.val) : a = b := by
  have hl : a.len.val = b.len.val := by
    rcases Nat.lt_trichotomy a.len.val b.len.val with h1 | h1 | h1
    · have := ha.len_mono hb h1; omega
    · exact h1
    · have := hb.len_mono ha h1; omega
  exact Mag.ext_limbAt (Fin.ext hl) (limbs_eq_of_valBelow_eq h)

theorem zero_inv : Mag.zero.Inv := by decide

@[simp] theorem val_zero : Mag.zero.val = 0 := by decide

theorem Mag.Inv.eq_zero_of_val {m : Mag} (h : m.Inv) (h0 : m.val = 0) : m = Mag.zero :=
  h.eq_of_val_eq zero_inv (by rw [h0, val_zero])

theorem Mag.Inv.eq_zero_of_len {m : Mag} (h : m.Inv) (h0 : m.len.val = 0) : m = Mag.zero :=
  h.eq_zero_of_val (h.len_eq_zero_iff.mp h0)

/-- Setting `len` to a length that fits the limbs gives a record that meets Inv-M. -/
theorem setLen_inv {m : Mag} {n : Nat} (hn : n ≤ 8) (hz : ∀ i, n ≤ i → i < 8 → m.limbAt i = 0)
    (ht : 0 < n → m.limbAt (n - 1) ≠ 0) : (m.setLen n).Inv := by
  rw [Mag.inv_iff, len_setLen m hn]
  refine ⟨fun i hi => ?_, ht⟩
  by_cases h8 : i < 8
  · exact hz i hi h8
  · exact limbAt_of_ge _ (by omega)

@[simp] theorem valBelow_setLen (m : Mag) (n k : Nat) : (m.setLen n).valBelow k = m.valBelow k :=
  valBelow_congr fun _ _ => rfl

@[simp] theorem val_setLen (m : Mag) (n : Nat) : (m.setLen n).val = m.val := valBelow_setLen m n 8

theorem valBelow_putLimb_le {m : Mag} {i n : Nat} (v : Limb) (h : n ≤ i) :
    (m.putLimb i v).valBelow n = m.valBelow n :=
  valBelow_congr fun j hj => limbAt_putLimb_ne m v (by omega)

theorem magOfLimb_spec (v : Limb) : (magOfLimb v).Inv ∧ (magOfLimb v).val = v.toNat := by
  unfold magOfLimb
  by_cases h : v = 0
  · rw [if_pos h, h]; exact ⟨zero_inv, by simp⟩
  · rw [if_neg h]
    refine ⟨setLen_inv (by omega) (fun i h1 h2 => ?_) (fun _ => by simpa using h), ?_⟩
    · rw [limbAt_putLimb_ne _ _ (by omega), limbAt_zero]
    · rw [val_setLen]
      show (Mag.zero.putLimb 0 v).valBelow 8 = _
      rw [valBelow_of_zero (n := 1) (by omega) fun i h1 h2 => ?_]
      · simp [valBelow_succ]
      · rw [limbAt_putLimb_ne _ _ (by omega), limbAt_zero]

/-! ### The accumulator -/

theorem acc_zero_toNat : (0 : Acc).toNat = 0 := rfl

theorem accLimb_toNat (s : Acc) : (accLimb s).toNat = s.toNat % 2 ^ 32 := by
  simp [accLimb, BitVec.extractLsb'_toNat]

theorem accCarry_toNat (s : Acc) : (accCarry s).toNat = s.toNat / 2 ^ 32 := by
  have := s.isLt
  simp only [accCarry, BitVec.toNat_setWidth, BitVec.extractLsb'_toNat, Nat.shiftRight_eq_div_pow]
  omega

theorem accBorrow_toNat (s : Acc) : (accBorrow s).toNat = s.toNat / 2 ^ 63 := by
  have := s.isLt
  simp only [accBorrow, BitVec.toNat_setWidth, BitVec.extractLsb'_toNat, Nat.shiftRight_eq_div_pow]
  omega

theorem zext_toNat (x : Limb) : (x.setWidth 64 : Acc).toNat = x.toNat := by
  have := x.isLt
  simp only [BitVec.toNat_setWidth]
  omega

/-- A sum with a carry of 0 or 1 never wraps (R111). -/
theorem accSum_toNat (x y : Limb) {c : Acc} (hc : c.toNat ≤ 1) :
    (accSum x y c).toNat = x.toNat + y.toNat + c.toNat := by
  have := x.isLt
  have := y.isLt
  simp only [accSum, BitVec.toNat_add, zext_toNat]
  omega

/-- A limb plus a carry below `2^32` never wraps (R118). -/
theorem accInc_toNat (x : Limb) {c : Acc} (hc : c.toNat < 2 ^ 32) :
    ((x.setWidth 64 : Acc) + c).toNat = x.toNat + c.toNat := by
  have := x.isLt
  simp only [BitVec.toNat_add, zext_toNat]
  omega

/-- A limb position's difference: limb out plus what is taken equals limb in plus the borrow's weight (R111). -/
theorem accDiff_spec (x y : Limb) {c : Acc} (hc : c.toNat ≤ 1) :
    (accLimb (accDiff x y c)).toNat + y.toNat + c.toNat =
      x.toNat + (accBorrow (accDiff x y c)).toNat * 2 ^ 32 ∧ (accBorrow (accDiff x y c)).toNat ≤ 1 := by
  have := x.isLt
  have := y.isLt
  rw [accLimb_toNat, accBorrow_toNat]
  simp only [accDiff, BitVec.toNat_sub, zext_toNat]
  omega

/-- The same for a limb less a borrow below `2^32` (R119). -/
theorem accDec_spec (x : Limb) {c : Acc} (hc : c.toNat < 2 ^ 32) :
    (accLimb ((x.setWidth 64 : Acc) - c)).toNat + c.toNat =
      x.toNat + (accBorrow ((x.setWidth 64 : Acc) - c)).toNat * 2 ^ 32 ∧
      (accBorrow ((x.setWidth 64 : Acc) - c)).toNat ≤ 1 := by
  have := x.isLt
  rw [accLimb_toNat, accBorrow_toNat]
  simp only [BitVec.toNat_sub, zext_toNat]
  omega

/-! ### Comparators -/

theorem compareLimbs_eq (a b : Mag) (n : Nat) :
    compareLimbs a b n = compare (a.valBelow n) (b.valBelow n) := by
  induction n with
  | zero => rfl
  | succ n ih =>
    have ha := valBelow_lt a n
    have hb := valBelow_lt b n
    rw [compareLimbs, valBelow_succ, valBelow_succ]
    split
    · rename_i h
      have h' : (b.limbAt n).toNat + 1 ≤ (a.limbAt n).toNat := h
      have := Nat.mul_le_mul_right (2 ^ (32 * n)) h'
      rw [Nat.add_mul] at this
      exact (Nat.compare_eq_gt.mpr (by omega)).symm
    · split
      · rename_i h
        have h' : (a.limbAt n).toNat + 1 ≤ (b.limbAt n).toNat := h
        have := Nat.mul_le_mul_right (2 ^ (32 * n)) h'
        rw [Nat.add_mul] at this
        exact (Nat.compare_eq_lt.mpr (by omega)).symm
      · rename_i h1 h2
        have h1' : ¬ (b.limbAt n).toNat < (a.limbAt n).toNat := h1
        have h2' : ¬ (a.limbAt n).toNat < (b.limbAt n).toNat := h2
        have he : (a.limbAt n).toNat = (b.limbAt n).toNat := by omega
        rw [ih, he]
        rcases Nat.lt_trichotomy (a.valBelow n) (b.valBelow n) with h | h | h
        · rw [Nat.compare_eq_lt.mpr h, Nat.compare_eq_lt.mpr (by omega)]
        · rw [h]
          simp
        · rw [Nat.compare_eq_gt.mpr h, Nat.compare_eq_gt.mpr (by omega)]

/-- `mag_compare` orders by value (R112). -/
theorem magCompare_eq {a b : Mag} (ha : a.Inv) (hb : b.Inv) : magCompare a b = compare a.val b.val := by
  unfold magCompare
  split
  · rename_i h
    exact (Nat.compare_eq_gt.mpr (hb.len_mono ha h)).symm
  · split
    · rename_i h
      exact (Nat.compare_eq_lt.mpr (ha.len_mono hb h)).symm
    · rename_i h1 h2
      have he : a.len.val = b.len.val := by
        have h1' : ¬ b.len.val < a.len.val := h1
        have h2' : ¬ a.len.val < b.len.val := h2
        omega
      rw [compareLimbs_eq, ha.val_eq (Nat.le_refl _) a.len_le, hb.val_eq (Nat.le_refl _) b.len_le, he]

/-- `mag_compare_small` orders by value when `len` is at least 1 (R113). -/
theorem magCompareSmall_eq {a : Mag} (ha : a.Inv) (h : 0 < a.len.val) (v : Limb) :
    magCompareSmall a v = compare a.val v.toNat := by
  unfold magCompareSmall
  rw [if_neg (by intro e; rw [e] at h; exact absurd h (by decide))]
  split
  · rename_i h1
    have h1' : 1 < a.len.val := h1
    have := ha.le_val h
    have h2 : 2 ^ (32 * 1) ≤ 2 ^ (32 * (a.len.val - 1)) := Nat.pow_le_pow_right (by omega) (by omega)
    have := v.isLt
    exact (Nat.compare_eq_gt.mpr (by omega)).symm
  · rename_i h1
    have h1' : ¬ 1 < a.len.val := h1
    have hv : a.val = (a.limbAt 0).toNat := by
      rw [ha.val_eq (n := 1) (by omega) (by omega), valBelow_succ]
      simp
    rw [hv]
    split
    · rename_i h2; exact (Nat.compare_eq_gt.mpr h2).symm
    · split
      · rename_i h3; exact (Nat.compare_eq_lt.mpr h3).symm
      · rename_i h2 h3
        have h2' : ¬ v.toNat < (a.limbAt 0).toNat := h2
        have h3' : ¬ (a.limbAt 0).toNat < v.toNat := h3
        exact (Nat.compare_eq_eq.mpr (by omega)).symm

/-! ### The adder -/

/-- One run of the adder's loop: the limbs it wrote and the carry hold the sum, the others are as before (R114). -/
theorem addLoop_spec (a b : Mag) (n : Nat) : ∀ (i : Nat) (c : Acc) (r : Mag), i + n ≤ 8 → c.toNat ≤ 1 →
    (addLoop a b n i c r).2.toNat ≤ 1 ∧
    (addLoop a b n i c r).1.valBelow (i + n) + (addLoop a b n i c r).2.toNat * 2 ^ (32 * (i + n)) +
        (a.valBelow i + b.valBelow i) =
      r.valBelow i + c.toNat * 2 ^ (32 * i) + (a.valBelow (i + n) + b.valBelow (i + n)) ∧
    ∀ j, j < i ∨ i + n ≤ j → (addLoop a b n i c r).1.limbAt j = r.limbAt j := by
  induction n with
  | zero =>
    intro i c r _ hc
    rw [addLoop, Nat.add_zero]
    exact ⟨hc, rfl, fun _ _ => rfl⟩
  | succ n ih =>
    intro i c r hi hc
    simp only [addLoop]
    have hs := accSum_toNat (a.limbAt i) (b.limbAt i) hc
    have hlo := accLimb_toNat (accSum (a.limbAt i) (b.limbAt i) c)
    have hhi := accCarry_toNat (accSum (a.limbAt i) (b.limbAt i) c)
    have hla := limb_lt a i
    have hlb := limb_lt b i
    generalize accSum (a.limbAt i) (b.limbAt i) c = s at *
    have hc' : (accCarry s).toNat ≤ 1 := by omega
    obtain ⟨h1, h2, h3⟩ := ih (i + 1) (accCarry s) (r.putLimb i (accLimb s)) (by omega) hc'
    refine ⟨h1, ?_, fun j hj => ?_⟩
    · rw [show i + 1 + n = i + (n + 1) by omega] at h2
      rw [valBelow_succ, valBelow_succ, valBelow_succ, valBelow_putLimb_le _ (Nat.le_refl i),
        limbAt_putLimb_same _ _ (by omega), pow32_succ] at h2
      have key : (accLimb s).toNat + (accCarry s).toNat * 2 ^ 32 =
          (a.limbAt i).toNat + (b.limbAt i).toNat + c.toNat := by omega
      have key2 := congrArg (· * 2 ^ (32 * i)) key
      simp only [Nat.add_mul] at key2
      have e : (accCarry s).toNat * 2 ^ 32 * 2 ^ (32 * i) = (accCarry s).toNat * (2 ^ (32 * i) * 2 ^ 32) := by
        rw [Nat.mul_assoc, Nat.mul_comm (2 ^ 32)]
      rw [e] at key2
      omega
    · rw [h3 j (by omega), limbAt_putLimb_ne _ _ (by omega)]

/-- Everything `mag_add` can do (R114, R115). -/
theorem magAdd_spec {a b : Mag} (ha : a.Inv) (hb : b.Inv) :
    (∃ r, magAdd a b = .ok r ∧ r.Inv ∧ r.val = a.val + b.val ∧
      (r.len.val = max a.len.val b.len.val ∨ r.len.val = max a.len.val b.len.val + 1)) ∨
    (magAdd a b = .error .capacityOverflow ∧ 2 ^ 256 ≤ a.val + b.val) := by
  have hla := a.len_le
  have hlb := b.len_le
  obtain ⟨n, hn⟩ : ∃ n, n = max a.len.val b.len.val := ⟨_, rfl⟩
  have hn8 : n ≤ 8 := by omega
  obtain ⟨h1, h2, h3⟩ := addLoop_spec a b n 0 0 Mag.zero (by omega) (by simp)
  simp only [Nat.zero_add, valBelow_zero, Nat.add_zero, acc_zero_toNat, Nat.zero_mul] at h2 h3
  rw [← ha.val_eq (by omega) hn8, ← hb.val_eq (by omega) hn8] at h2
  simp only [magAdd, ← hn]
  generalize hL : addLoop a b n 0 0 Mag.zero = L at *
  obtain ⟨r, c⟩ := L
  simp only at h1 h2 h3 ⊢
  have hz : ∀ i, n ≤ i → r.limbAt i = 0 := fun i hi => by rw [h3 i (by omega), limbAt_zero]
  have hr := valBelow_lt r n
  by_cases hc : c = 1
  · have hc1 : c.toNat = 1 := by rw [hc]; rfl
    rw [hc1] at h2
    rw [if_pos hc]
    by_cases h8 : n = Config.CAP
    · right
      refine ⟨by rw [if_pos h8], ?_⟩
      have h8' : n = 8 := h8
      subst h8'
      omega
    · left
      have h8' : n < 8 := by
        have : n ≠ 8 := h8
        omega
      refine ⟨_, by rw [if_neg h8], setLen_inv (by omega) (fun i h4 _ => ?_) (fun _ => ?_), ?_, ?_⟩
      · rw [limbAt_putLimb_ne _ _ (by omega), hz i (by omega)]
      · rw [Nat.add_sub_cancel, limbAt_putLimb_same _ _ h8']; decide
      · rw [val_setLen]
        show (r.putLimb n 1).valBelow 8 = _
        rw [valBelow_of_zero (n := n + 1) (by omega) fun i h4 _ => ?_]
        · rw [valBelow_succ, valBelow_putLimb_le _ (Nat.le_refl n), limbAt_putLimb_same _ _ h8']
          have : (1 : Limb).toNat = 1 := rfl
          rw [this]
          omega
        · rw [limbAt_putLimb_ne _ _ (by omega), hz i (by omega)]
      · right; rw [len_setLen _ (by omega)]
  · left
    have hc0 : c.toNat = 0 := by
      rcases Nat.lt_or_ge 0 c.toNat with h | h
      · exact absurd (BitVec.eq_of_toNat_eq (x := c) (y := 1) (by
          have : (1 : Acc).toNat = 1 := rfl
          omega)) hc
      · omega
    rw [hc0] at h2
    have hval : r.valBelow n = a.val + b.val := by omega
    refine ⟨_, by rw [if_neg hc], setLen_inv hn8 (fun i h4 _ => hz i h4) (fun hpos => ?_), ?_, ?_⟩
    · intro h0
      have hlt : r.valBelow n < 2 ^ (32 * (n - 1)) := by
        have e := valBelow_succ r (n - 1)
        rw [Nat.sub_add_cancel hpos, h0] at e
        have := valBelow_lt r (n - 1)
        simp at e
        omega
      rcases Nat.le_total a.len.val b.len.val with h | h
      · have := hb.le_val (by omega)
        rw [show b.len.val = n by omega] at this
        omega
      · have := ha.le_val (by omega)
        rw [show a.len.val = n by omega] at this
        omega
    · rw [val_setLen, ← hval]
      exact valBelow_of_zero hn8 fun i h4 _ => hz i h4
    · left; rw [len_setLen _ hn8]

/-! ### The normalizer and the subtractor -/

theorem topLimb_spec (m : Mag) (n : Nat) :
    topLimb m n ≤ n ∧ (∀ j, topLimb m n ≤ j → j < n → m.limbAt j = 0) ∧
      (0 < topLimb m n → m.limbAt (topLimb m n - 1) ≠ 0) := by
  induction n with
  | zero => simp [topLimb]
  | succ n ih =>
    rw [topLimb]
    split
    · rename_i h
      exact ⟨Nat.le_refl _, fun j h1 h2 => by omega, fun _ => by simpa using h⟩
    · rename_i h
      obtain ⟨h1, h2, h3⟩ := ih
      refine ⟨by omega, fun j h4 h5 => ?_, h3⟩
      rcases Nat.lt_succ_iff_lt_or_eq.mp h5 with h6 | rfl
      · exact h2 j h4 h6
      · simpa using h

/-- `normalize_from` keeps the value and gives a normalized record (R117, R124). -/
theorem normalizeBelow_spec {m : Mag} {n : Nat} (hn : n ≤ 8) (hz : ∀ i, n ≤ i → i < 8 → m.limbAt i = 0) :
    (normalizeBelow m n).Inv ∧ (normalizeBelow m n).val = m.val := by
  obtain ⟨h1, h2, h3⟩ := topLimb_spec m n
  refine ⟨setLen_inv (by omega) (fun i h4 h5 => ?_) h3, val_setLen m _⟩
  by_cases h : i < n
  · exact h2 i h4 h
  · exact hz i (by omega) h5

/-- One run of the subtractor's loop (R116). -/
theorem subLoop_spec (a b : Mag) (n : Nat) : ∀ (i : Nat) (c : Acc) (r : Mag), i + n ≤ 8 → c.toNat ≤ 1 →
    (∃ o ≤ 1, (subLoop a b n i c r).valBelow (i + n) + c.toNat * 2 ^ (32 * i) +
        (b.valBelow (i + n) + a.valBelow i) =
      r.valBelow i + o * 2 ^ (32 * (i + n)) + (a.valBelow (i + n) + b.valBelow i)) ∧
    ∀ j, j < i ∨ i + n ≤ j → (subLoop a b n i c r).limbAt j = r.limbAt j := by
  induction n with
  | zero =>
    intro i c r _ hc
    rw [subLoop, Nat.add_zero]
    exact ⟨⟨c.toNat, hc, by omega⟩, fun _ _ => rfl⟩
  | succ n ih =>
    intro i c r hi hc
    simp only [subLoop]
    obtain ⟨hd, hb'⟩ := accDiff_spec (a.limbAt i) (b.limbAt i) hc
    generalize accDiff (a.limbAt i) (b.limbAt i) c = d at *
    obtain ⟨⟨o, ho, h2⟩, h3⟩ := ih (i + 1) (accBorrow d) (r.putLimb i (accLimb d)) (by omega) hb'
    refine ⟨⟨o, ho, ?_⟩, fun j hj => ?_⟩
    · rw [show i + 1 + n = i + (n + 1) by omega] at h2
      rw [valBelow_succ, valBelow_succ, valBelow_succ, valBelow_putLimb_le _ (Nat.le_refl i),
        limbAt_putLimb_same _ _ (by omega), pow32_succ] at h2
      have key2 := congrArg (· * 2 ^ (32 * i)) hd
      simp only [Nat.add_mul] at key2
      have e : (accBorrow d).toNat * 2 ^ 32 * 2 ^ (32 * i) = (accBorrow d).toNat * (2 ^ (32 * i) * 2 ^ 32) := by
        rw [Nat.mul_assoc, Nat.mul_comm (2 ^ 32)]
      rw [e] at key2
      omega
    · rw [h3 j (by omega), limbAt_putLimb_ne _ _ (by omega)]

/-- Everything `mag_sub` can do (R116, R120, R124). -/
theorem magSub_spec {a b : Mag} (ha : a.Inv) (hb : b.Inv) :
    (b.val ≤ a.val ∧ ∃ r, magSub a b = .ok r ∧ r.Inv ∧ r.val = a.val - b.val) ∨
    (a.val < b.val ∧ magSub a b = .error .preconditionViolation) := by
  unfold magSub
  rw [magCompare_eq ha hb]
  by_cases hlt : a.val < b.val
  · right; exact ⟨hlt, by rw [if_pos (Nat.compare_eq_lt.mpr hlt)]⟩
  · left
    have hle : b.val ≤ a.val := by omega
    refine ⟨hle, _, by rw [if_neg (by rw [Nat.compare_eq_lt]; exact hlt)], ?_⟩
    have hla := a.len_le
    have hlen : b.len.val ≤ a.len.val := by
      by_contra h
      have := ha.len_mono hb (by omega)
      omega
    obtain ⟨⟨o, ho, h2⟩, h3⟩ := subLoop_spec a b a.len.val 0 0 Mag.zero (by omega) (by simp)
    simp only [Nat.zero_add, valBelow_zero, Nat.add_zero, acc_zero_toNat, Nat.zero_mul] at h2 h3
    rw [← ha.val_eq (Nat.le_refl _) hla, ← hb.val_eq hlen hla] at h2
    have hr := valBelow_lt (subLoop a b a.len.val 0 0 Mag.zero) a.len.val
    generalize subLoop a b a.len.val 0 0 Mag.zero = r at *
    have hz : ∀ i, a.len.val ≤ i → i < 8 → r.limbAt i = 0 := fun i hi _ => by rw [h3 i (by omega), limbAt_zero]
    have ho0 : o = 0 := by
      rcases Nat.eq_zero_or_pos o with h | h
      · exact h
      · have ho1 : o = 1 := by omega
        rw [ho1] at h2
        omega
    obtain ⟨h4, h5⟩ := normalizeBelow_spec hla hz
    refine ⟨h4, ?_⟩
    have h6 : r.val = r.valBelow a.len.val := valBelow_of_zero hla hz
    rw [h5, h6]
    rw [ho0] at h2
    omega

/-! ### The incrementer and the decrementer -/

/-- One run of the incrementer's loop (R118): it stops at some limb `k` with the sum in place, or the carry runs
past limb 7. -/
theorem incLoop_spec (n : Nat) : ∀ (i : Nat) (c : Acc) (r : Mag), i + n = 8 → c.toNat < 2 ^ 32 →
    (∃ r' k, incLoop n i c r = .ok (r', k) ∧ i ≤ k ∧ k ≤ 8 ∧ r'.len = r.len ∧
      r'.valBelow 8 = r.valBelow 8 + c.toNat * 2 ^ (32 * i) ∧
      (∀ j, j < i ∨ k ≤ j → r'.limbAt j = r.limbAt j) ∧ (i < k → r'.limbAt (k - 1) ≠ 0)) ∨
    (incLoop n i c r = .error .capacityOverflow ∧ 2 ^ 256 ≤ r.valBelow 8 + c.toNat * 2 ^ (32 * i)) := by
  induction n with
  | zero =>
    intro i c r hi hc
    have hi8 : i = 8 := by omega
    rw [incLoop]
    by_cases h : c = 0
    · left
      rw [if_pos h, h]
      exact ⟨r, i, rfl, Nat.le_refl _, by omega, rfl, by simp, fun _ _ => rfl, fun hlt => absurd hlt (by omega)⟩
    · right
      rw [if_neg h, hi8]
      have : c.toNat ≠ 0 := fun h0 => h (BitVec.eq_of_toNat_eq (by simpa using h0))
      exact ⟨rfl, by omega⟩
  | succ n ih =>
    intro i c r hi hc
    rw [incLoop]
    by_cases h : c = 0
    · left
      rw [if_pos h, h]
      exact ⟨r, i, rfl, Nat.le_refl _, by omega, rfl, by simp, fun _ _ => rfl, fun hlt => absurd hlt (by omega)⟩
    · rw [if_neg h]
      simp only
      have hcne : c.toNat ≠ 0 := fun h0 => h (BitVec.eq_of_toNat_eq (by simpa using h0))
      have hs := accInc_toNat (r.limbAt i) hc
      have hlo := accLimb_toNat ((r.limbAt i).setWidth 64 + c)
      have hhi := accCarry_toNat ((r.limbAt i).setWidth 64 + c)
      have hl := limb_lt r i
      generalize ((r.limbAt i).setWidth 64 + c : Acc) = s at *
      have key : (accLimb s).toNat + (accCarry s).toNat * 2 ^ 32 = (r.limbAt i).toNat + c.toNat := by omega
      have hval : (r.putLimb i (accLimb s)).valBelow 8 + (accCarry s).toNat * 2 ^ (32 * (i + 1)) =
          r.valBelow 8 + c.toNat * 2 ^ (32 * i) := by
        have grow : ∀ k, i + 1 ≤ k → (r.putLimb i (accLimb s)).valBelow k + (accCarry s).toNat * 2 ^ (32 * (i + 1)) =
            r.valBelow k + c.toNat * 2 ^ (32 * i) := by
          intro k hk
          induction k, hk using Nat.le_induction with
          | base =>
            rw [valBelow_succ, valBelow_succ, valBelow_putLimb_le _ (Nat.le_refl i),
              limbAt_putLimb_same _ _ (by omega), pow32_succ]
            have key2 := congrArg (· * 2 ^ (32 * i)) key
            simp only [Nat.add_mul] at key2
            have e : (accCarry s).toNat * 2 ^ 32 * 2 ^ (32 * i) =
                (accCarry s).toNat * (2 ^ (32 * i) * 2 ^ 32) := by
              rw [Nat.mul_assoc, Nat.mul_comm (2 ^ 32)]
            rw [e] at key2
            omega
          | succ k hk ihk =>
            rw [valBelow_succ, valBelow_succ, limbAt_putLimb_ne _ _ (by omega)]
            omega
        exact grow 8 (by omega)
      rcases ih (i + 1) (accCarry s) (r.putLimb i (accLimb s)) (by omega) (by omega) with
        ⟨r', k, h1, h2, h3, h4, h5, h6, h7⟩ | ⟨h1, h2⟩
      · left
        refine ⟨r', k, h1, by omega, h3, by rw [h4, len_putLimb], by omega, fun j hj => ?_, fun _ => ?_⟩
        · rw [h6 j (by omega), limbAt_putLimb_ne _ _ (by omega)]
        · by_cases hk : i + 1 < k
          · exact h7 hk
          · have hk' : k = i + 1 := by omega
            subst hk'
            rw [Nat.add_sub_cancel, h6 i (by omega), limbAt_putLimb_same _ _ (by omega)]
            intro h0
            -- the loop stopped at once, so no carry was left, and the limb holds the whole nonzero sum
            have hc0 : accCarry s = 0 := by
              by_contra hne
              have h7' : (accCarry s).toNat ≠ 0 := fun e => hne (BitVec.eq_of_toNat_eq (by simpa using e))
              have hcong : r'.valBelow 8 = (r.putLimb i (accLimb s)).valBelow 8 :=
                valBelow_congr fun j _ => h6 j (by omega)
              have hp : 0 < 2 ^ (32 * (i + 1)) := Nat.pow_pos (by omega)
              have := Nat.mul_pos (Nat.pos_of_ne_zero h7') hp
              omega
            rw [h0, hc0] at key
            simp at key
            omega
      · right
        exact ⟨h1, by omega⟩

/-- Everything `mag_inc` can do (R118, R121, R124). -/
theorem magInc_spec {a : Mag} (ha : a.Inv) (v : Limb) :
    (∃ r, magInc a v = .ok r ∧ r.Inv ∧ r.val = a.val + v.toNat) ∨
    (magInc a v = .error .capacityOverflow ∧ 2 ^ 256 ≤ a.val + v.toNat) := by
  unfold magInc
  have hv := zext_toNat v
  rcases incLoop_spec 8 0 (v.setWidth 64) a (by omega) (by rw [hv]; exact v.isLt) with
    ⟨r, k, h1, -, h3, h4, h5, h6, h7⟩ | ⟨h1, h2⟩
  · left
    rw [show incLoop Config.CAP 0 (v.setWidth 64) a = .ok (r, k) from h1]
    have hl := a.len_le
    refine ⟨_, rfl, setLen_inv (by rw [h4]; omega) (fun i h8 _ => ?_) (fun hpos => ?_), ?_⟩
    · rw [h4] at h8
      rw [h6 i (by omega)]
      exact ha.limb_zero (by omega)
    · rw [h4] at hpos ⊢
      by_cases hk : a.len.val < k
      · rw [Nat.max_eq_right (by omega)]; exact h7 (by omega)
      · rw [Nat.max_eq_left (by omega)]
        by_cases hk' : k = a.len.val
        · rw [← hk']; exact h7 (by omega)
        · rw [h6 _ (by omega)]; exact ha.top_ne (by omega)
    · rw [val_setLen]
      show r.valBelow 8 = a.valBelow 8 + _
      rw [h5, hv]
      simp
  · right
    rw [show incLoop Config.CAP 0 (v.setWidth 64) a = .error .capacityOverflow from h1]
    refine ⟨rfl, ?_⟩
    rw [hv] at h2
    simpa [Mag.val] using h2

/-- One run of the decrementer's loop (R119). -/
theorem decLoop_spec (n : Nat) : ∀ (i : Nat) (c : Acc) (r : Mag), i + n = 8 → c.toNat < 2 ^ 32 →
    ∃ o, (decLoop n i c r).valBelow 8 + c.toNat * 2 ^ (32 * i) = r.valBelow 8 + o * 2 ^ 256 := by
  induction n with
  | zero =>
    intro i c r hi hc
    have hi8 : i = 8 := by omega
    subst hi8
    exact ⟨c.toNat, rfl⟩
  | succ n ih =>
    intro i c r hi hc
    rw [decLoop]
    by_cases h : c = 0
    · rw [if_pos h, h]; exact ⟨0, by simp⟩
    · rw [if_neg h]
      simp only
      obtain ⟨hd, hb'⟩ := accDec_spec (r.limbAt i) hc
      generalize ((r.limbAt i).setWidth 64 - c : Acc) = d at *
      obtain ⟨o, ho⟩ := ih (i + 1) (accBorrow d) (r.putLimb i (accLimb d)) (by omega) (by omega)
      refine ⟨o, ?_⟩
      have grow : ∀ k, i + 1 ≤ k → (r.putLimb i (accLimb d)).valBelow k + c.toNat * 2 ^ (32 * i) =
          r.valBelow k + (accBorrow d).toNat * 2 ^ (32 * (i + 1)) := by
        intro k hk
        induction k, hk using Nat.le_induction with
        | base =>
          rw [valBelow_succ, valBelow_succ, valBelow_putLimb_le _ (Nat.le_refl i),
            limbAt_putLimb_same _ _ (by omega), pow32_succ]
          have key2 := congrArg (· * 2 ^ (32 * i)) hd
          simp only [Nat.add_mul] at key2
          have e : (accBorrow d).toNat * 2 ^ 32 * 2 ^ (32 * i) =
              (accBorrow d).toNat * (2 ^ (32 * i) * 2 ^ 32) := by
            rw [Nat.mul_assoc, Nat.mul_comm (2 ^ 32)]
          rw [e] at key2
          omega
        | succ k hk ihk =>
          rw [valBelow_succ, valBelow_succ, limbAt_putLimb_ne _ _ (by omega)]
          omega
      have := grow 8 (by omega)
      omega

/-- A difference below `2^256` has borrowed nothing from beyond the top limb. -/
theorem no_borrow {x y v o : Nat} (h : x + v = y + o * 2 ^ 256) (hx : x < 2 ^ 256) (hv : v ≤ y) : x + v = y := by
  rcases Nat.eq_zero_or_pos o with h0 | h0
  · rw [h, h0, Nat.zero_mul, Nat.add_zero]
  · have := Nat.mul_le_mul_right (2 ^ 256) (show 1 ≤ o from h0)
    rw [Nat.one_mul] at this
    omega

/-- Everything `mag_dec` can do (R119, R120, R124). -/
theorem magDec_spec {a : Mag} (ha : a.Inv) (v : Limb) :
    (v.toNat ≤ a.val ∧ ∃ r, magDec a v = .ok r ∧ r.Inv ∧ r.val = a.val - v.toNat) ∨
    (a.val < v.toNat ∧ magDec a v = .error .preconditionViolation) := by
  obtain ⟨hvi, hvv⟩ := magOfLimb_spec v
  unfold magDec
  rw [magCompare_eq ha hvi, hvv]
  by_cases hlt : a.val < v.toNat
  · right; exact ⟨hlt, by rw [if_pos (Nat.compare_eq_lt.mpr hlt)]⟩
  · left
    refine ⟨by omega, _, by rw [if_neg (by rw [Nat.compare_eq_lt]; exact hlt)], ?_⟩
    have hv := zext_toNat v
    obtain ⟨o, ho⟩ := decLoop_spec Config.CAP 0 (v.setWidth 64) a rfl (by rw [hv]; exact v.isLt)
    generalize decLoop Config.CAP 0 (v.setWidth 64) a = r at *
    rw [hv, Nat.mul_zero, Nat.pow_zero, Nat.mul_one, ← r.val_def, ← a.val_def] at ho
    have hsum := no_borrow ho r.val_lt (by omega)
    have hav := ha.val_lt_len
    have hla := a.len_le
    have hz : ∀ i, a.len.val ≤ i → i < 8 → r.limbAt i = 0 := fun i h1 h2 =>
      limbAt_eq_zero_of_val_lt (k := 8) (n := a.len.val) (by rw [← r.val_def]; omega) h1 h2
    obtain ⟨h4, h5⟩ := normalizeBelow_spec hla hz
    exact ⟨h4, by rw [h5]; omega⟩

end Sys2Proof.Machine
end

