-- ==== Sys2Proof/Laws/Signed.lean ====
section
/-!
SUPPORT. What each function of the signed façade can do, said once over integers (41_conversion.md,
42_compare.md, 43_add_sub.md, 44_inc_dec.md).
-/

namespace Sys2Proof.Machine

/-! ### Signed values -/

theorem Value.zero_inv : Value.zero.Inv := by decide

@[simp] theorem sval_zero : Value.zero.sval = 0 := by decide

theorem Value.Inv.eq_zero {x : Value} (h : x.Inv) (hs : x.sgn = .zero) : x = Value.zero := by
  obtain ⟨s, m⟩ := x
  have hm : m = Mag.zero := h.1.eq_zero_of_val (h.2.mp hs)
  simp only at hs
  rw [hs, hm]; rfl

theorem sval_of_neg {x : Value} (h : x.sgn = .neg) : x.sval = -(x.mag.val : Int) := by
  simp [Value.sval, h, Sgn.toInt]

theorem sval_of_pos {x : Value} (h : x.sgn = .pos) : x.sval = (x.mag.val : Int) := by
  simp [Value.sval, h, Sgn.toInt]

theorem sval_of_zero {x : Value} (h : x.sgn = .zero) : x.sval = 0 := by
  simp [Value.sval, h, Sgn.toInt]

theorem Value.Inv.val_pos {x : Value} (h : x.Inv) (hs : x.sgn ≠ .zero) : 0 < x.mag.val :=
  Nat.pos_of_ne_zero fun h0 => hs (h.2.mpr h0)

/-- The three cases of a register's value, each with its sign and its magnitude. -/
theorem Value.Inv.cases_sval {x : Value} (h : x.Inv) :
    (x.sgn = .neg ∧ x.sval = -(x.mag.val : Int) ∧ 0 < x.mag.val) ∨
    (x.sgn = .zero ∧ x.sval = 0 ∧ x.mag.val = 0) ∨
    (x.sgn = .pos ∧ x.sval = (x.mag.val : Int) ∧ 0 < x.mag.val) := by
  rcases hs : x.sgn with _ | _ | _
  · exact .inl ⟨rfl, sval_of_neg hs, h.val_pos (by rw [hs]; decide)⟩
  · exact .inr (.inl ⟨rfl, sval_of_zero hs, h.2.mp hs⟩)
  · exact .inr (.inr ⟨rfl, sval_of_pos hs, h.val_pos (by rw [hs]; decide)⟩)

/-- The range of a value register (00_scope.md R8). -/
theorem sval_range (x : Value) : -(2 ^ 256 : Int) < x.sval ∧ x.sval < 2 ^ 256 := by
  have := x.mag.val_lt
  rcases hs : x.sgn with _ | _ | _
  · rw [sval_of_neg hs]; omega
  · rw [sval_of_zero hs]; omega
  · rw [sval_of_pos hs]; omega

/-- A record that meets the invariants is fixed by its integer (10_state.md R34). -/
theorem Value.Inv.eq_of_sval_eq {x y : Value} (hx : x.Inv) (hy : y.Inv) (h : x.sval = y.sval) : x = y := by
  obtain ⟨s, m⟩ := x
  obtain ⟨s', m'⟩ := y
  rcases hx.cases_sval with ⟨h1, h2, h3⟩ | ⟨h1, h2, h3⟩ | ⟨h1, h2, h3⟩ <;>
  rcases hy.cases_sval with ⟨k1, k2, k3⟩ | ⟨k1, k2, k3⟩ | ⟨k1, k2, k3⟩ <;>
  simp only at h1 h2 h3 k1 k2 k3 <;>
  first
    | exact absurd h (by omega)
    | rw [h1, k1, show m = m' from hx.1.eq_of_val_eq hy.1 (by simp only; omega)]

theorem value_inv {s : Sgn} {m : Mag} (hm : m.Inv) (h : s = .zero ↔ m.val = 0) : (Value.mk s m).Inv := ⟨hm, h⟩

/-! ### Comparison -/

/-- `scmp` orders by the integers the records stand for (R171). -/
theorem scmp_eq {a b : Value} (ha : a.Inv) (hb : b.Inv) : scmp a b = compare a.sval b.sval := by
  unfold scmp
  rcases ha.cases_sval with ⟨h1, h2, h3⟩ | ⟨h1, h2, h3⟩ | ⟨h1, h2, h3⟩ <;>
  rcases hb.cases_sval with ⟨k1, k2, k3⟩ | ⟨k1, k2, k3⟩ | ⟨k1, k2, k3⟩ <;>
  simp only [h1, k1, ne_eq, not_true_eq_false, if_false, if_true, reduceCtorEq, not_false_eq_true, Sgn.toInt,
    magCompare_eq ha.1 hb.1] <;>
  symm
  · rcases Nat.lt_trichotomy a.mag.val b.mag.val with h | h | h
    · rw [compare_lt_iff_lt.mpr h, compare_gt_iff_gt.mpr (show b.sval < a.sval by omega)]; rfl
    · rw [compare_eq_iff_eq.mpr h, compare_eq_iff_eq.mpr (show a.sval = b.sval by omega)]; rfl
    · rw [compare_gt_iff_gt.mpr h, compare_lt_iff_lt.mpr (show a.sval < b.sval by omega)]; rfl
  · exact compare_lt_iff_lt.mpr (by omega)
  · exact compare_lt_iff_lt.mpr (by omega)
  · exact compare_gt_iff_gt.mpr (by omega)
  · rw [h3, k3]; exact compare_eq_iff_eq.mpr (by omega)
  · exact compare_lt_iff_lt.mpr (by omega)
  · exact compare_gt_iff_gt.mpr (by omega)
  · exact compare_gt_iff_gt.mpr (by omega)
  · rcases Nat.lt_trichotomy a.mag.val b.mag.val with h | h | h
    · rw [compare_lt_iff_lt.mpr h, compare_lt_iff_lt.mpr (show a.sval < b.sval by omega)]
    · rw [compare_eq_iff_eq.mpr h, compare_eq_iff_eq.mpr (show a.sval = b.sval by omega)]
    · rw [compare_gt_iff_gt.mpr h, compare_gt_iff_gt.mpr (show b.sval < a.sval by omega)]

/-! ### Addition and subtraction -/

theorem sneg_spec {a : Value} (ha : a.Inv) : (sneg a).Inv ∧ (sneg a).sval = -a.sval := by
  refine ⟨⟨ha.1, ?_⟩, ?_⟩
  · show a.sgn.negate = .zero ↔ a.mag.val = 0
    rw [← ha.2]
    rcases a.sgn with _ | _ | _ <;> simp [Sgn.negate]
  · show a.sgn.negate.toInt * (a.mag.val : Int) = -(a.sgn.toInt * (a.mag.val : Int))
    rcases a.sgn with _ | _ | _ <;> simp [Sgn.negate, Sgn.toInt]

/-- An engine sum with its sign put back. -/
theorem withSign_add_spec {a b : Mag} (ha : a.Inv) (hb : b.Inv) (hpos : 0 < a.val) {s : Sgn} (hs : s ≠ .zero) :
    (∃ r, withSign s (magAdd a b) = .ok r ∧ r.Inv ∧ r.sval = s.toInt * ((a.val : Int) + b.val)) ∨
    (withSign s (magAdd a b) = .error .capacityOverflow ∧ 2 ^ 256 ≤ a.val + b.val) := by
  rcases magAdd_spec ha hb with ⟨r, h1, h2, h3, -⟩ | ⟨h1, h2⟩
  · left
    rw [h1]
    refine ⟨_, rfl, value_inv h2 ⟨fun h => absurd h hs, fun h => by omega⟩, ?_⟩
    show s.toInt * (r.val : Int) = _
    rw [h3]; push_cast; rfl
  · right; rw [h1]; exact ⟨rfl, h2⟩

/-- An engine difference with its sign put back; the caller has compared, so it never faults (R180). -/
theorem withSign_sub_spec {a b : Mag} (ha : a.Inv) (hb : b.Inv) (hlt : b.val < a.val) {s : Sgn} (hs : s ≠ .zero) :
    ∃ r, withSign s (magSub a b) = .ok r ∧ r.Inv ∧ r.sval = s.toInt * ((a.val : Int) - b.val) := by
  rcases magSub_spec ha hb with ⟨-, r, h1, h2, h3⟩ | ⟨h1, -⟩
  · rw [h1]
    refine ⟨_, rfl, value_inv h2 ⟨fun h => absurd h hs, fun h => by omega⟩, ?_⟩
    show s.toInt * (r.val : Int) = _
    rw [h3, Nat.cast_sub (by omega)]
  · omega

/-- Everything `sadd` can do (R180, R182). -/
theorem sadd_spec {a b : Value} (ha : a.Inv) (hb : b.Inv) :
    (∃ r, sadd a b = .ok r ∧ r.Inv ∧ r.sval = a.sval + b.sval) ∨
    (sadd a b = .error .capacityOverflow ∧ a.sgn = b.sgn ∧ a.sgn ≠ .zero ∧ 2 ^ 256 ≤ a.mag.val + b.mag.val) := by
  unfold sadd
  rcases hb.cases_sval with ⟨k1, k2, k3⟩ | ⟨k1, k2, k3⟩ | ⟨k1, k2, k3⟩ <;>
  rcases ha.cases_sval with ⟨h1, h2, h3⟩ | ⟨h1, h2, h3⟩ | ⟨h1, h2, h3⟩ <;>
  simp only [h1, k1, if_true, if_false, reduceCtorEq, magCompare_eq ha.1 hb.1]
  · rcases withSign_add_spec ha.1 hb.1 h3 (s := .neg) (by decide) with ⟨r, e1, e2, e3⟩ | ⟨e1, e2⟩
    · exact .inl ⟨r, e1, e2, by rw [e3, h2, k2]; simp [Sgn.toInt]; omega⟩
    · exact .inr ⟨e1, by simp, by simp, e2⟩
  · exact .inl ⟨b, rfl, hb, by omega⟩
  · left
    rcases Nat.lt_trichotomy a.mag.val b.mag.val with h | h | h
    · rw [compare_lt_iff_lt.mpr h]
      obtain ⟨r, e1, e2, e3⟩ := withSign_sub_spec hb.1 ha.1 h (s := .neg) (by decide)
      exact ⟨r, e1, e2, by rw [e3, h2, k2]; simp [Sgn.toInt]; omega⟩
    · rw [compare_eq_iff_eq.mpr h]
      exact ⟨_, rfl, Value.zero_inv, by rw [sval_zero]; omega⟩
    · rw [compare_gt_iff_gt.mpr h]
      obtain ⟨r, e1, e2, e3⟩ := withSign_sub_spec ha.1 hb.1 h (s := .pos) (by decide)
      exact ⟨r, e1, e2, by rw [e3, h2, k2]; simp [Sgn.toInt]; omega⟩
  · exact .inl ⟨a, rfl, ha, by omega⟩
  · exact .inl ⟨a, rfl, ha, by omega⟩
  · exact .inl ⟨a, rfl, ha, by omega⟩
  · left
    rcases Nat.lt_trichotomy a.mag.val b.mag.val with h | h | h
    · rw [compare_lt_iff_lt.mpr h]
      obtain ⟨r, e1, e2, e3⟩ := withSign_sub_spec hb.1 ha.1 h (s := .pos) (by decide)
      exact ⟨r, e1, e2, by rw [e3, h2, k2]; simp [Sgn.toInt]; omega⟩
    · rw [compare_eq_iff_eq.mpr h]
      exact ⟨_, rfl, Value.zero_inv, by rw [sval_zero]; omega⟩
    · rw [compare_gt_iff_gt.mpr h]
      obtain ⟨r, e1, e2, e3⟩ := withSign_sub_spec ha.1 hb.1 h (s := .neg) (by decide)
      exact ⟨r, e1, e2, by rw [e3, h2, k2]; simp [Sgn.toInt]; omega⟩
  · exact .inl ⟨b, rfl, hb, by omega⟩
  · rcases withSign_add_spec ha.1 hb.1 h3 (s := .pos) (by decide) with ⟨r, e1, e2, e3⟩ | ⟨e1, e2⟩
    · exact .inl ⟨r, e1, e2, by rw [e3, h2, k2]; simp [Sgn.toInt]⟩
    · exact .inr ⟨e1, by simp, by simp, e2⟩

/-- Everything `ssub` can do (R183, R185). -/
theorem ssub_spec {a b : Value} (ha : a.Inv) (hb : b.Inv) :
    (∃ r, ssub a b = .ok r ∧ r.Inv ∧ r.sval = a.sval - b.sval) ∨
    (ssub a b = .error .capacityOverflow ∧ a.sgn = b.sgn.negate ∧ a.sgn ≠ .zero ∧
      2 ^ 256 ≤ a.mag.val + b.mag.val) := by
  unfold ssub
  rcases hb.cases_sval with ⟨k1, k2, k3⟩ | ⟨k1, k2, k3⟩ | ⟨k1, k2, k3⟩ <;>
  rcases ha.cases_sval with ⟨h1, h2, h3⟩ | ⟨h1, h2, h3⟩ | ⟨h1, h2, h3⟩ <;>
  simp only [h1, k1, if_true, if_false, reduceCtorEq, ne_eq, not_true_eq_false, not_false_eq_true, Sgn.negate,
    magCompare_eq ha.1 hb.1]
  · left
    rcases Nat.lt_trichotomy a.mag.val b.mag.val with h | h | h
    · rw [compare_lt_iff_lt.mpr h]
      obtain ⟨r, e1, e2, e3⟩ := withSign_sub_spec hb.1 ha.1 h (s := .pos) (by decide)
      exact ⟨r, e1, e2, by rw [e3, h2, k2]; simp [Sgn.toInt]; omega⟩
    · rw [compare_eq_iff_eq.mpr h]
      exact ⟨_, rfl, Value.zero_inv, by rw [sval_zero]; omega⟩
    · rw [compare_gt_iff_gt.mpr h]
      obtain ⟨r, e1, e2, e3⟩ := withSign_sub_spec ha.1 hb.1 h (s := .neg) (by decide)
      exact ⟨r, e1, e2, by rw [e3, h2, k2]; simp [Sgn.toInt]; omega⟩
  · exact .inl ⟨_, rfl, (sneg_spec hb).1, by rw [(sneg_spec hb).2]; omega⟩
  · rcases withSign_add_spec ha.1 hb.1 h3 (s := .pos) (by decide) with ⟨r, e1, e2, e3⟩ | ⟨e1, e2⟩
    · exact .inl ⟨r, e1, e2, by rw [e3, h2, k2]; simp [Sgn.toInt]⟩
    · exact .inr ⟨e1, by simp, by simp, e2⟩
  · exact .inl ⟨a, rfl, ha, by omega⟩
  · exact .inl ⟨a, rfl, ha, by omega⟩
  · exact .inl ⟨a, rfl, ha, by omega⟩
  · rcases withSign_add_spec ha.1 hb.1 h3 (s := .neg) (by decide) with ⟨r, e1, e2, e3⟩ | ⟨e1, e2⟩
    · exact .inl ⟨r, e1, e2, by rw [e3, h2, k2]; simp [Sgn.toInt]; omega⟩
    · exact .inr ⟨e1, by simp, by simp, e2⟩
  · exact .inl ⟨_, rfl, (sneg_spec hb).1, by rw [(sneg_spec hb).2]; omega⟩
  · left
    rcases Nat.lt_trichotomy a.mag.val b.mag.val with h | h | h
    · rw [compare_lt_iff_lt.mpr h]
      obtain ⟨r, e1, e2, e3⟩ := withSign_sub_spec hb.1 ha.1 h (s := .neg) (by decide)
      exact ⟨r, e1, e2, by rw [e3, h2, k2]; simp [Sgn.toInt]⟩
    · rw [compare_eq_iff_eq.mpr h]
      exact ⟨_, rfl, Value.zero_inv, by rw [sval_zero]; omega⟩
    · rw [compare_gt_iff_gt.mpr h]
      obtain ⟨r, e1, e2, e3⟩ := withSign_sub_spec ha.1 hb.1 h (s := .pos) (by decide)
      exact ⟨r, e1, e2, by rw [e3, h2, k2]; simp [Sgn.toInt]⟩

/-! ### Increment and decrement -/

theorem sgn_other {s d : Sgn} (h0 : s ≠ .zero) (hd : s ≠ d) (hd0 : d ≠ .zero) : s.toInt = -d.toInt := by
  rcases s with _ | _ | _ <;> rcases d with _ | _ | _ <;> simp_all [Sgn.toInt]

/-- Everything `sstep` can do (R200, R203). -/
theorem sstep_spec {x : Value} (hx : x.Inv) (v : Limb) {d : Sgn} (hd : d ≠ .zero) :
    (∃ r, sstep x v d = .ok r ∧ r.Inv ∧ r.sval = x.sval + d.toInt * (v.toNat : Int)) ∨
    (sstep x v d = .error .capacityOverflow ∧ (x.sgn = .zero ∨ x.sgn = d) ∧ 2 ^ 256 ≤ x.mag.val + v.toNat) := by
  unfold sstep
  by_cases haway : x.sgn = .zero ∨ x.sgn = d
  · rw [if_pos haway]
    rcases magInc_spec hx.1 v with ⟨r, h1, h2, h3⟩ | ⟨h1, h2⟩
    · left
      rw [h1]
      refine ⟨_, rfl, value_inv h2 ?_, ?_⟩
      · by_cases hz : x.sgn = .zero
        · have h0 := hx.2.mp hz
          by_cases hv : v = 0
          · rw [if_neg (by simp [hv]), h3, h0, hv]; simpa using hz
          · rw [if_pos ⟨hz, hv⟩]
            have := toNat_pos_of_ne hv
            exact ⟨fun h => absurd h hd, fun h => by omega⟩
        · rw [if_neg (by simp [hz])]
          have := hx.val_pos hz
          exact ⟨fun h => absurd h hz, fun h => by omega⟩
      · show Sgn.toInt (if _ then _ else _) * (r.val : Int) = _
        by_cases hz : x.sgn = .zero
        · have h0 := hx.2.mp hz
          rw [sval_of_zero hz, h3, h0]
          by_cases hv : v = 0
          · rw [if_neg (by simp [hv]), hv, hz]; simp [Sgn.toInt]
          · rw [if_pos ⟨hz, hv⟩]; simp
        · have hxd : x.sgn = d := by rcases haway with h | h; exact absurd h hz; exact h
          rw [if_neg (by simp [hz]), h3, Value.sval, hxd]
          push_cast
          rw [mul_add]
    · right; rw [h1]; exact ⟨rfl, haway, h2⟩
  · left
    rw [if_neg haway]
    have hz : x.sgn ≠ .zero := fun h => haway (.inl h)
    have hxd : x.sgn ≠ d := fun h => haway (.inr h)
    have hvpos := hx.val_pos hz
    have hlen : 0 < x.mag.len.val := Nat.pos_of_ne_zero fun h => by
      have := hx.1.len_eq_zero_iff.mp h
      omega
    have hsx : x.sval = -d.toInt * (x.mag.val : Int) := by rw [Value.sval, sgn_other hz hxd hd]
    rw [magCompareSmall_eq hx.1 hlen v]
    rcases Nat.lt_trichotomy x.mag.val v.toNat with h | h | h
    · rw [compare_lt_iff_lt.mpr h]
      have hl0 : x.mag.val = (x.mag.limbAt 0).toNat := by
        have hlen1 : x.mag.len.val ≤ 1 := by
          by_contra hc
          have h1 := hx.1.le_val hlen
          have h2 : 2 ^ (32 * 1) ≤ 2 ^ (32 * (x.mag.len.val - 1)) :=
            Nat.pow_le_pow_right (by omega) (by omega)
          have := v.isLt
          omega
        rw [hx.1.val_eq (n := 1) hlen1 (by omega), valBelow_succ]
        simp
      obtain ⟨g1, g2⟩ := magOfLimb_spec (v - x.mag.limbAt 0)
      have hsub : (v - x.mag.limbAt 0).toNat = v.toNat - x.mag.val := by
        have := v.isLt
        rw [BitVec.toNat_sub]
        omega
      refine ⟨_, rfl, value_inv g1 ⟨fun h' => absurd h' hd, fun h' => by omega⟩, ?_⟩
      show d.toInt * ((magOfLimb (v - x.mag.limbAt 0)).val : Int) = _
      rw [g2, hsub, hsx, Nat.cast_sub (by omega)]
      ring
    · rw [compare_eq_iff_eq.mpr h]
      refine ⟨_, rfl, Value.zero_inv, ?_⟩
      rw [sval_zero, hsx, h]
      ring
    · rw [compare_gt_iff_gt.mpr h]
      rcases magDec_spec hx.1 v with ⟨-, r, g1, g2, g3⟩ | ⟨g1, -⟩
      · rw [g1]
        refine ⟨_, rfl, value_inv g2 ⟨fun h' => absurd h' hz, fun h' => by omega⟩, ?_⟩
        show x.sgn.toInt * (r.val : Int) = _
        rw [g3, sgn_other hz hxd hd, hsx, Nat.cast_sub (by omega)]
        ring
      · omega

/-! ### Conversion -/

theorem abs64_toNat (v : Din) : ((abs64 v).toNat : Int) = |v.toInt| := by
  unfold abs64
  have hlt := v.isLt
  by_cases h : v.msb
  · rw [if_pos h]
    have hge : 2 ^ 63 ≤ v.toNat := by
      rw [BitVec.msb_eq_decide] at h
      simpa using h
    have e : v.toInt = (v.toNat : Int) - 2 ^ 64 := by
      rw [BitVec.toInt_eq_toNat_cond]
      rw [if_neg (by omega)]
      simp
    have e2 : (~~~v + 1).toNat = 2 ^ 64 - v.toNat := by
      rw [BitVec.toNat_add, BitVec.toNat_not]
      have : (1 : BitVec 64).toNat = 1 := rfl
      rw [this]
      omega
    rw [e, e2, abs_of_neg (by omega)]
    omega
  · rw [if_neg h]
    have hltm : v.toNat < 2 ^ 63 := by
      rw [BitVec.msb_eq_decide] at h
      simpa using h
    have e : v.toInt = (v.toNat : Int) := by
      rw [BitVec.toInt_eq_toNat_cond, if_pos (by omega)]
    rw [e, abs_of_nonneg (by omega)]

/-- The two limbs of a 64-bit number, normalized (R150, R152). -/
theorem splitLoop_spec (u : BitVec 64) :
    (splitLoop 2 0 u Mag.zero).Inv ∧ (splitLoop 2 0 u Mag.zero).val = u.toNat := by
  have hu := u.isLt
  have e0 : (u.extractLsb' 0 32).toNat = u.toNat % 2 ^ 32 := by simp [BitVec.extractLsb'_toNat]
  have e1 : (u >>> 32).toNat = u.toNat / 2 ^ 32 := by
    rw [BitVec.toNat_ushiftRight, Nat.shiftRight_eq_div_pow]
  have e2 : ((u >>> 32).extractLsb' 0 32).toNat = u.toNat / 2 ^ 32 := by
    rw [BitVec.extractLsb'_toNat, e1, Nat.shiftRight_zero]
    omega
  unfold splitLoop
  by_cases h : u = 0
  · rw [if_pos h, h]
    exact ⟨by decide, by decide⟩
  · rw [if_neg h]
    have hpos : 0 < u.toNat := Nat.pos_of_ne_zero fun h0 => h (BitVec.eq_of_toNat_eq (by simpa using h0))
    unfold splitLoop
    by_cases h' : u >>> 32 = 0
    · rw [if_pos h']
      have h0 : u.toNat / 2 ^ 32 = 0 := by rw [← e1, h']; rfl
      refine ⟨setLen_inv (by omega) (fun i h1 h2 => ?_) (fun _ => ?_), ?_⟩
      · rw [limbAt_putLimb_ne _ _ (by omega), limbAt_zero]
      · rw [Nat.zero_add, Nat.sub_self, limbAt_putLimb_same _ _ (by omega)]
        intro hc
        rw [hc] at e0
        have : (0 : BitVec 32).toNat = 0 := rfl
        omega
      · rw [val_setLen, Mag.val_def, valBelow_of_zero (n := 1) (by omega) fun i h1 h2 => ?_]
        · rw [valBelow_succ, valBelow_zero, limbAt_putLimb_same _ _ (by omega), e0]
          omega
        · rw [limbAt_putLimb_ne _ _ (by omega), limbAt_zero]
    · rw [if_neg h', splitLoop]
      have h0 : u.toNat / 2 ^ 32 ≠ 0 := fun hc =>
        h' (BitVec.eq_of_toNat_eq (by rw [e1, hc]; rfl))
      refine ⟨setLen_inv (by omega) (fun i h1 h2 => ?_) (fun _ => ?_), ?_⟩
      · rw [limbAt_putLimb_ne _ _ (by omega), limbAt_putLimb_ne _ _ (by omega), limbAt_zero]
      · rw [show 0 + 1 + 1 - 1 = 0 + 1 from rfl, limbAt_putLimb_same _ _ (by omega)]
        intro hc
        rw [hc] at e2
        have : (0 : BitVec 32).toNat = 0 := rfl
        omega
      · rw [val_setLen, Mag.val_def, valBelow_of_zero (n := 2) (by omega) fun i h1 h2 => ?_]
        · rw [valBelow_succ, valBelow_succ, valBelow_zero, limbAt_putLimb_same _ _ (by omega),
            limbAt_putLimb_ne _ _ (by omega), limbAt_putLimb_same _ _ (by omega), e0, e2]
          omega
        · rw [limbAt_putLimb_ne _ _ (by omega), limbAt_putLimb_ne _ _ (by omega), limbAt_zero]

/-- `screate` gives the record of the signed operand (R150, R153). -/
theorem screate_spec (v : Din) : (screate v).Inv ∧ (screate v).sval = v.toInt := by
  unfold screate
  by_cases h : v = 0
  · rw [if_pos h, h]; exact ⟨Value.zero_inv, by decide⟩
  · rw [if_neg h]
    obtain ⟨h1, h2⟩ := splitLoop_spec (abs64 v)
    have ha := abs64_toNat v
    have hne : v.toInt ≠ 0 := fun h0 => h (BitVec.eq_of_toInt_eq (by rw [h0]; rfl))
    have hm : v.msb = decide (v.toInt < 0) := BitVec.msb_eq_toInt
    by_cases hs : v.msb
    · rw [if_pos hs]
      have hneg : v.toInt < 0 := by simpa [hs] using hm
      rw [abs_of_neg hneg] at ha
      refine ⟨value_inv h1 ⟨fun h' => absurd h' (by decide), fun h' => by omega⟩, ?_⟩
      rw [sval_of_neg rfl, h2]
      omega
    · rw [if_neg hs]
      have hpos : 0 ≤ v.toInt := by simpa [hs] using hm
      rw [abs_of_nonneg hpos] at ha
      refine ⟨value_inv h1 ⟨fun h' => absurd h' (by decide), fun h' => by omega⟩, ?_⟩
      rw [sval_of_pos rfl, h2]
      omega

/-- Everything `narrow` to 32 or 64 bits can do (R154): in range it gives the integer, else it overflows. -/
theorem narrow_spec {x : Value} (hx : x.Inv) {n : Nat} (hn : n = 32 ∨ n = 64) :
    (-(2 ^ (n - 1) : Int) ≤ x.sval ∧ x.sval < 2 ^ (n - 1) ∧ narrow x n = .ok (BitVec.ofInt n x.sval)) ∨
    ((x.sval < -(2 ^ (n - 1) : Int) ∨ (2 ^ (n - 1) : Int) ≤ x.sval) ∧ narrow x n = .error .narrowingOverflow) := by
  have hp : ((2 ^ (n - 1) : Nat) : Int) = (2 : Int) ^ (n - 1) := by push_cast; rfl
  have hp1 : 0 < 2 ^ (n - 1) := Nat.pow_pos (by omega)
  rw [← hp]
  unfold narrow
  by_cases hz : x.sgn = .zero
  · left
    rw [if_pos hz, sval_of_zero hz]
    refine ⟨by omega, by omega, ?_⟩
    rfl
  · rw [if_neg hz]
    by_cases hl : x.mag.len.val > Config.limbsOf n
    · right
      rw [if_pos hl]
      refine ⟨?_, rfl⟩
      have hl' : n / 32 < x.mag.len.val := hl
      have h1 := hx.1.le_val (by omega)
      have h2 : 2 ^ (32 * (n / 32)) ≤ 2 ^ (32 * (x.mag.len.val - 1)) :=
        Nat.pow_le_pow_right (by omega) (by omega)
      have h3 : 2 ^ (n - 1) < 2 ^ (32 * (n / 32)) := Nat.pow_lt_pow_right (by omega) (by omega)
      rcases hx.cases_sval with ⟨-, g, -⟩ | ⟨g, -⟩ | ⟨-, g, -⟩
      · left; omega
      · exact absurd g hz
      · right; omega
    · rw [if_neg hl]
      simp only
      rw [← hx.1.val_eq (Nat.le_refl _) x.mag.len_le]
      rcases hx.cases_sval with ⟨g1, g, -⟩ | ⟨g, -⟩ | ⟨g1, g, -⟩
      · rw [if_neg (by simp [g1])]
        by_cases hr : x.mag.val > 2 ^ (n - 1)
        · right; exact ⟨.inl (by omega), by rw [if_pos ⟨g1, hr⟩]⟩
        · left; exact ⟨by omega, by omega, by rw [if_neg (by simp only [hr, and_false, not_false_eq_true])]; rfl⟩
      · exact absurd g hz
      · by_cases hr : x.mag.val > 2 ^ (n - 1) - 1
        · right; exact ⟨.inr (by omega), by rw [if_pos ⟨g1, hr⟩]⟩
        · left
          refine ⟨by omega, by omega, ?_⟩
          rw [if_neg (by simp only [hr, and_false, not_false_eq_true]), if_neg (by simp [g1])]
          rfl

/-- The absolute value of a register's integer is its magnitude's value. -/
theorem Value.Inv.abs_sval {x : Value} (h : x.Inv) : |x.sval| = (x.mag.val : Int) := by
  rcases h.cases_sval with ⟨-, h2, -⟩ | ⟨-, h2, h3⟩ | ⟨-, h2, -⟩ <;> rw [h2]
  · simp
  · simp [h3]
  · simp

end Sys2Proof.Machine
end

