-- ==== Sys2Proof/Laws/Step.lean ====
section
/-!
SUPPORT. What a command and a step can do, said once: three shapes of a command's end, and one equation for each
kind of step.
-/

namespace Sys2Proof.Machine

/-- A command that writes a value register either writes it or takes its fault. -/
theorem finishV_cases (mn : Mnemonic) (rd : Reg) (e : Except Cause Value) (s : State) :
    (∃ x, e = .ok x ∧ finishV mn rd e s = .next (s.writeV rd x)) ∨
    (∃ c, e = .error c ∧ finishV mn rd e s = .next (takeFault c mn.opcode s)) := by
  cases e with
  | ok x => exact .inl ⟨x, rfl, rfl⟩
  | error c => exact .inr ⟨c, rfl, rfl⟩

/-- A command that writes `RES` either writes it or takes its fault. -/
theorem finishRES_cases (mn : Mnemonic) (e : Except Cause (BitVec 64)) (s : State) :
    (∃ v, e = .ok v ∧ finishRES mn e s = .next (s.writeRES v)) ∨
    (∃ c, e = .error c ∧ finishRES mn e s = .next (takeFault c mn.opcode s)) := by
  cases e with
  | ok x => exact .inl ⟨x, rfl, rfl⟩
  | error c => exact .inr ⟨c, rfl, rfl⟩

/-- On a well-formed INC the operand is a limb (30_encoding.md R86). -/
theorem execInc_eq {rd : Reg} {din : Din} (h : dinFitsLimb din = true) (s : State) :
    execInc rd din s = finishV .inc rd (sstep (s.readV rd) (limbOperand din) .pos) s := by
  simp [execInc, stepV, h]

/-- On a well-formed DEC the operand is a limb (30_encoding.md R86). -/
theorem execDec_eq {rd : Reg} {din : Din} (h : dinFitsLimb din = true) (s : State) :
    execDec rd din s = finishV .dec rd (sstep (s.readV rd) (limbOperand din) .neg) s := by
  simp [execDec, stepV, h]

/-- An INC whose operand is wider than a limb is an illegal command (30_encoding.md R86). -/
theorem execInc_illegal {rd : Reg} {din : Din} (h : dinFitsLimb din = false) (s : State) :
    execInc rd din s = .next (takeFault .illegalCommand (Mnemonic.inc).opcode s) := by
  simp [execInc, stepV, h]

/-- A DEC whose operand is wider than a limb is an illegal command (30_encoding.md R86). -/
theorem execDec_illegal {rd : Reg} {din : Din} (h : dinFitsLimb din = false) (s : State) :
    execDec rd din s = .next (takeFault .illegalCommand (Mnemonic.dec).opcode s) := by
  simp [execDec, stepV, h]

/-! The meaning of each command, its arm of `exec` unfolded once. -/

theorem exec_create (rd : Reg) (din : Din) (s : State) :
    exec (.create rd din) s = finishV .create rd (.ok (screate din)) s := rfl
theorem exec_toi32 (rs1 : Reg) (s : State) :
    exec (.toi32 rs1) s = finishRES .toi32 ((narrow (s.readV rs1) 32).map fun r => r.signExtend 64) s := rfl
theorem exec_toi64 (rs1 : Reg) (s : State) :
    exec (.toi64 rs1) s = finishRES .toi64 (narrow (s.readV rs1) 64) s := rfl
theorem exec_cmp (rs1 rs2 : Reg) (s : State) :
    exec (.cmp rs1 rs2) s =
      finishRES .cmp (.ok (resOfInt (orderInt (scmp (s.readV rs1) (s.readV rs2))))) s := rfl
theorem exec_add (rd rs1 rs2 : Reg) (s : State) :
    exec (.add rd rs1 rs2) s = finishV .add rd (sadd (s.readV rs1) (s.readV rs2)) s := rfl
theorem exec_sub (rd rs1 rs2 : Reg) (s : State) :
    exec (.sub rd rs1 rs2) s = finishV .sub rd (ssub (s.readV rs1) (s.readV rs2)) s := rfl
theorem exec_inc (rd : Reg) (din : Din) (s : State) (h : dinFitsLimb din = true) :
    exec (.inc rd din) s = finishV .inc rd (sstep (s.readV rd) (limbOperand din) .pos) s := execInc_eq h s
theorem exec_dec (rd : Reg) (din : Din) (s : State) (h : dinFitsLimb din = true) :
    exec (.dec rd din) s = finishV .dec rd (sstep (s.readV rd) (limbOperand din) .neg) s := execDec_eq h s
theorem exec_neg (rd rs1 : Reg) (s : State) :
    exec (.neg rd rs1) s = finishV .neg rd (.ok (sneg (s.readV rs1))) s := rfl
theorem exec_mov (rd rs1 : Reg) (s : State) :
    exec (.mov rd rs1) s = finishV .mov rd (.ok (s.readV rs1)) s := rfl
theorem exec_rdsgn (rs1 : Reg) (s : State) :
    exec (.rdsgn rs1) s = finishRES .rdsgn (.ok (resOfInt (s.readV rs1).sgn.toInt)) s := rfl
theorem exec_rdlen (rs1 : Reg) (s : State) :
    exec (.rdlen rs1) s = finishRES .rdlen (.ok (BitVec.ofNat 64 (s.readV rs1).mag.len.val)) s := rfl
theorem exec_rdlimb (rs1 : Reg) (k : LimbIx) (s : State) :
    exec (.rdlimb rs1 k) s = finishRES .rdlimb (.ok (((s.readV rs1).mag.limbAt k.val).setWidth 64)) s := rfl

theorem finishV_ok (mn : Mnemonic) (rd : Reg) (x : Value) (s : State) :
    finishV mn rd (.ok x) s = .next (s.writeV rd x) := rfl
theorem finishV_error (mn : Mnemonic) (rd : Reg) (c : Cause) (s : State) :
    finishV mn rd (.error c) s = .next (takeFault c mn.opcode s) := rfl
theorem finishRES_ok (mn : Mnemonic) (v : BitVec 64) (s : State) :
    finishRES mn (.ok v) s = .next (s.writeRES v) := rfl
theorem finishRES_error (mn : Mnemonic) (c : Cause) (s : State) :
    finishRES mn (.error c) s = .next (takeFault c mn.opcode s) := rfl

/-- The three ways a command ends: its destination register written, `RES` written, or a fault taken under its own
opcode. -/
def ExecShape (i : Instr) (s : State) : Prop :=
  (∃ rd x, dest i = some rd ∧ exec i s = .next (s.writeV rd x)) ∨
  (∃ v, dest i = none ∧ exec i s = .next (s.writeRES v)) ∨
  (∃ c, exec i s = .next (takeFault c i.opcode s))

theorem shape_of_finishV {i : Instr} {s : State} {mn : Mnemonic} {rd : Reg} {e : Except Cause Value}
    (hd : dest i = some rd) (ho : i.mnemonic = mn) (h : exec i s = finishV mn rd e s) : ExecShape i s := by
  subst ho
  rcases finishV_cases i.mnemonic rd e s with ⟨x, -, hx⟩ | ⟨c, -, hc⟩
  · exact .inl ⟨rd, x, hd, h.trans hx⟩
  · exact .inr (.inr ⟨c, h.trans hc⟩)

theorem shape_of_finishRES {i : Instr} {s : State} {mn : Mnemonic} {e : Except Cause (BitVec 64)}
    (hd : dest i = none) (ho : i.mnemonic = mn) (h : exec i s = finishRES mn e s) : ExecShape i s := by
  subst ho
  rcases finishRES_cases i.mnemonic e s with ⟨v, -, hv⟩ | ⟨c, -, hc⟩
  · exact .inr (.inl ⟨v, hd, h.trans hv⟩)
  · exact .inr (.inr ⟨c, h.trans hc⟩)

theorem exec_shape (i : Instr) (s : State) : ExecShape i s := by
  cases i with
  | create rd din => exact shape_of_finishV (mn := .create) rfl rfl (exec_create rd din s)
  | toi32 rs1 => exact shape_of_finishRES (mn := .toi32) rfl rfl (exec_toi32 rs1 s)
  | toi64 rs1 => exact shape_of_finishRES (mn := .toi64) rfl rfl (exec_toi64 rs1 s)
  | cmp rs1 rs2 => exact shape_of_finishRES (mn := .cmp) rfl rfl (exec_cmp rs1 rs2 s)
  | add rd rs1 rs2 => exact shape_of_finishV (mn := .add) rfl rfl (exec_add rd rs1 rs2 s)
  | sub rd rs1 rs2 => exact shape_of_finishV (mn := .sub) rfl rfl (exec_sub rd rs1 rs2 s)
  | inc rd din =>
    by_cases hf : dinFitsLimb din
    · exact shape_of_finishV (mn := .inc) rfl rfl (execInc_eq hf s)
    · exact .inr (.inr ⟨.illegalCommand, execInc_illegal (by simpa using hf) s⟩)
  | dec rd din =>
    by_cases hf : dinFitsLimb din
    · exact shape_of_finishV (mn := .dec) rfl rfl (execDec_eq hf s)
    · exact .inr (.inr ⟨.illegalCommand, execDec_illegal (by simpa using hf) s⟩)
  | neg rd rs1 => exact shape_of_finishV (mn := .neg) rfl rfl (exec_neg rd rs1 s)
  | mov rd rs1 => exact shape_of_finishV (mn := .mov) rfl rfl (exec_mov rd rs1 s)
  | rdsgn rs1 => exact shape_of_finishRES (mn := .rdsgn) rfl rfl (exec_rdsgn rs1 s)
  | rdlen rs1 => exact shape_of_finishRES (mn := .rdlen) rfl rfl (exec_rdlen rs1 s)
  | rdlimb rs1 k => exact shape_of_finishRES (mn := .rdlimb) rfl rfl (exec_rdlimb rs1 k s)

/-- An operand that fits a limb is its low half. -/
theorem limbOperand_toNat {din : Din} (h : dinFitsLimb din = true) : (limbOperand din).toNat = din.toNat := by
  have hlt := din.isLt
  have h0 : din.extractLsb' 32 32 = 0#32 := by simpa [dinFitsLimb] using h
  have h1 := congrArg BitVec.toNat h0
  simp only [BitVec.extractLsb'_toNat, Nat.shiftRight_eq_div_pow, BitVec.toNat_ofNat] at h1
  simp only [limbOperand, BitVec.extractLsb'_toNat, Nat.shiftRight_zero]
  omega

/-! ### Steps -/

theorem step_idle {s : State} (h : s.host = []) : step s = idleStep s := by simp [step, h]

theorem step_reset {s : State} {rest : List HostEvent} (h : s.host = .reset :: rest) :
    step s = .next (resetBlock { s with host := rest }) := by simp [step, h, hostStep]

theorem step_command {s : State} {cmd : CmdWord} {din : Din} {rest : List HostEvent}
    (h : s.host = .command cmd din :: rest) (hr : s.halted = false) :
    step s = acceptCommand cmd din { s with host := rest } := by simp [step, h, hostStep, hr]

theorem step_halted {s : State} (hh : s.halted = true) (h : ∀ rest, s.host ≠ .reset :: rest) :
    step s = .fault .halted := by
  unfold step
  split
  · simp [idleStep, hh]
  · rename_i e rest he
    cases e with
    | reset => exact absurd he (h rest)
    | command cmd din => simp [hostStep, hh]

/-- An accepted command either executes as the command it decodes to, or is illegal. -/
theorem acceptCommand_cases (cmd : CmdWord) (din : Din) (s : State) :
    (∃ i, decode cmd din = .ok i ∧ acceptCommand cmd din s = exec i s) ∨
    (∃ e, decode cmd din = .error e ∧
      acceptCommand cmd din s = .next (takeFault .illegalCommand (opcOf cmd) s)) := by
  unfold acceptCommand
  cases decode cmd din with
  | ok i => exact .inl ⟨i, rfl, rfl⟩
  | error e => exact .inr ⟨e, rfl, rfl⟩

/-! ### Runs -/

theorem run_zero (s : State) : run 0 s = .next s := rfl

theorem run_succ (k : Nat) (s : State) :
    run (k + 1) s =
      match step s with
      | .next t => run k t
      | .fault r => .fault r
      | .refused r => .refused r := rfl

theorem core_run_succ_next (M : Host.Core) (k : Nat) {s t : M.State} (h : M.step s = .next t) :
    Host.Core.run M (k + 1) s = Host.Core.run M k t := by
  rw [Host.Core.run, h]

theorem core_run_succ_fault (M : Host.Core) (k : Nat) {s : M.State} {r : M.Fault} (h : M.step s = .fault r) :
    Host.Core.run M (k + 1) s = .fault r := by
  rw [Host.Core.run, h]

theorem core_run_succ_refused (M : Host.Core) (k : Nat) {s : M.State} {r : M.Refusal} (h : M.step s = .refused r) :
    Host.Core.run M (k + 1) s = .refused r := by
  rw [Host.Core.run, h]

/-- `run` is the host's own run of this machine. -/
theorem run_eq_core_run (k : Nat) : ∀ s : State, run k s = Host.Core.run Sys2Proof.core k s := by
  induction k with
  | zero => intro s; rfl
  | succ k ih =>
    intro s
    rw [run_succ]
    cases h : step s with
    | next t => exact (ih t).trans (core_run_succ_next Sys2Proof.core k h).symm
    | fault r => exact (core_run_succ_fault Sys2Proof.core k h).symm
    | refused r => exact (core_run_succ_refused Sys2Proof.core k h).symm

/-- A run that begins with a step. -/
theorem run_succ_next {k : Nat} {s t : State} (h : step s = .next t) : run (k + 1) s = run k t := by
  rw [run_succ, h]

/-- An invariant of every step is an invariant of every run. -/
theorem run_induction {P : State → Prop} (hstep : ∀ s t, P s → step s = .next t → P t) :
    ∀ k s t, P s → run k s = .next t → P t := by
  intro k
  induction k with
  | zero =>
    intro s t hs h
    rw [run_zero] at h
    exact Host.Outcome.next.inj h ▸ hs
  | succ k ih =>
    intro s t hs h
    rw [run_succ] at h
    split at h
    · rename_i u hu
      exact ih u t (hstep s u hs hu) h
    · cases h
    · cases h

/-- A command that takes a block from RUN to HALTED has taken a fault under its own opcode. -/
theorem exec_halts {i : Instr} {s t : State} (h : exec i s = .next t) (hs : s.halted = false)
    (ht : t.halted = true) : ∃ c, t = takeFault c i.opcode s := by
  rcases exec_shape i s with ⟨rd, x, -, g⟩ | ⟨v, -, g⟩ | ⟨c, g⟩ <;> rw [g] at h <;> cases h
  · simp [hs] at ht
  · simp [hs] at ht
  · exact ⟨c, rfl⟩

/-- A HALTED block whose host presents no reset takes no step at all. -/
theorem run_halted {s : State} (h : s.halted = true) (hr : ∀ e ∈ s.host, e ≠ .reset) (k : Nat) :
    run (k + 1) s = .fault .halted := by
  rw [run_succ, step_halted h fun rest he => hr .reset (by simp [he]) rfl]

end Sys2Proof.Machine
end

