-- ==== Sys2Proof/Tests/Slice0.lean ====
section
/-!
SUPPORT. The model's own tests and the witnesses of the statements' hypotheses. Every expected result is from
95_test_vectors.md (the part is named) or from 30_encoding.md R96; none is the model's own answer pasted back.
-/

open Sys2Proof Sys2Proof.Machine

namespace Sys2Proof.Tests

/-! ### Small states -/

/-- A magnitude from its limbs, least significant first (95's notation). -/
def mag (ls : List Limb) : Mag := { len := Fin.ofNat 9 ls.length, limb := Vector.ofFn fun i => ls.getD i.val 0 }

def pos (ls : List Limb) : Value := { sgn := .pos, mag := mag ls }
def neg (ls : List Limb) : Value := { sgn := .neg, mag := mag ls }

/-- `k` limbs of all ones. -/
def ones (k : Nat) : List Limb := List.replicate k 0xFFFFFFFF
/-- `k` limbs of zero. -/
def zeros (k : Nat) : List Limb := List.replicate k 0

/-- The largest register value, `2^256 - 1`. -/
def maxV : Value := pos (ones 8)
def minV : Value := neg (ones 8)
/-- `2^255`. -/
def h255 : Value := pos (zeros 7 ++ [0x80000000])

/-- A block in RUN with registers from `v0` on, the others ZERO, and a mark in RES. -/
def st (vs : List Value) : State :=
  { State.reset with V := Vector.ofFn fun i => vs.getD i.val Value.zero, RES := 0xA5 }

/-- The state a command leaves. -/
def after (i : Instr) (s : State) : Option State :=
  match exec i s with
  | .next t => some t
  | .fault _ => none
  | .refused _ => none

/-- The state one step leaves when the host presents this command first. -/
def present (cmd : CmdWord) (din : Din) (s : State) : Option State :=
  match step { s with host := [.command cmd din] } with
  | .next t => some t
  | .fault _ => none
  | .refused _ => none

/-! ### Well-formedness: the one check there is, refused -/

theorem test_wf_refuses_wide_inc : (Instr.inc 0 0x100000000#64).wf = false := by decide
theorem test_wf_refuses_wide_dec : (Instr.dec 7 0xFFFFFFFFFFFFFFFF#64).wf = false := by decide
theorem test_wf_keeps_full_limb : (Instr.inc 0 0xFFFFFFFF#64).wf = true := by decide

/-! ### Decoding: one word for each row, bit by bit as OPC RD RS1 RS2/K RSV (R82, R89) -/

theorem test_decode_create :
    decode 0b000001_101_000_000_00000000000000000#32 7#64 = .ok (.create 5 7#64) := by decide
theorem test_decode_toi32 : decode 0b000010_000_011_000_00000000000000000#32 0#64 = .ok (.toi32 3) := by decide
theorem test_decode_toi64 : decode 0b000011_000_110_000_00000000000000000#32 0#64 = .ok (.toi64 6) := by decide
theorem test_decode_cmp : decode 0b000100_000_010_001_00000000000000000#32 0#64 = .ok (.cmp 2 1) := by decide
theorem test_decode_add : decode 0b000101_010_000_001_00000000000000000#32 0#64 = .ok (.add 2 0 1) := by decide
theorem test_decode_sub : decode 0b000110_011_010_001_00000000000000000#32 0#64 = .ok (.sub 3 2 1) := by decide
theorem test_decode_inc : decode 0b000111_011_000_000_00000000000000000#32 15#64 = .ok (.inc 3 15#64) := by decide
theorem test_decode_dec : decode 0b001000_001_000_000_00000000000000000#32 5#64 = .ok (.dec 1 5#64) := by decide
theorem test_decode_neg : decode 0b001001_100_111_000_00000000000000000#32 0#64 = .ok (.neg 4 7) := by decide
theorem test_decode_mov : decode 0b001010_001_110_000_00000000000000000#32 0#64 = .ok (.mov 1 6) := by decide
theorem test_decode_rdsgn : decode 0b001011_000_100_000_00000000000000000#32 0#64 = .ok (.rdsgn 4) := by decide
theorem test_decode_rdlen : decode 0b001100_000_010_000_00000000000000000#32 0#64 = .ok (.rdlen 2) := by decide
theorem test_decode_rdlimb : decode 0b001101_000_101_111_00000000000000000#32 0#64 = .ok (.rdlimb 5 7) := by decide

/-! The illegal commands of 95 part 2.8, with the STATUS they leave from reset. -/

theorem test_reject_by_name :
    decode 0x00000000#32 0#64 = .error .unassignedOpcode ∧ decode 0x38000000#32 0#64 = .error .unassignedOpcode ∧
    decode 0xFC000000#32 0#64 = .error .unassignedOpcode ∧ decode 0x15020001#32 0#64 = .error .mustBeZero ∧
    decode 0x04100000#32 5#64 = .error .mustBeZero ∧ decode 0x08800000#32 0#64 = .error .mustBeZero ∧
    decode 0x10010000#32 0#64 = .error .mustBeZero ∧ decode 0x28020000#32 0#64 = .error .mustBeZero ∧
    decode 0x1C000000#32 0x0000000100000000#64 = .error .dinTooWide := by decide

theorem test_status_of_illegal_commands :
    (present 0x00000000#32 0#64 .reset).map State.statusOut = some 0x041#32 ∧
    (present 0xFC000000#32 0#64 .reset).map State.statusOut = some 0x3F41#32 ∧
    (present 0x15020001#32 0#64 .reset).map State.statusOut = some 0x541#32 ∧
    (present 0x28020000#32 0#64 .reset).map State.statusOut = some 0xA41#32 ∧
    (present 0x1C000000#32 0x0000000100000000#64 .reset).map State.statusOut = some 0x741#32 := by decide

theorem test_legal_neighbours :
    (present 0x1C000000#32 0x00000000FFFFFFFF#64 .reset).map (·.readV 0) = some (pos [0xFFFFFFFF]) ∧
    (present 0x34020000#32 0#64 (st [])).map State.RES = some 0#64 := by decide

/-! The table's numbering, and the very next step runs the word (log entries 6 and 7). -/

theorem test_table_words :
    decodeTableWord 32 0x15020000 = some (.add 2 0 1) ∧ decodeTableWord 96 0x0000000F1D800000 = some (.inc 3 15#64) ∧
    decodeTableWord 32 0x15020001 = none := by decide

theorem test_fetch_word_is_run :
    step (State.reset.withFetchWord 96 0x0000000F1D800000) = .next (State.reset.writeV 3 (pos [15])) := rfl

/-! ### Assembler lines (R94) -/

theorem test_assemble_p4_and_blank_line :
    assembleProgram ["NEG v0, v0".toList, " ; a comment".toList, "DEC v1,#0x1 ; one".toList, "CLR v5".toList] =
      .ok [.command 0x24000000#32 0#64, .command 0x20800000#32 1#64, .command 0x06800000#32 0#64] := by decide

theorem test_assemble_refuses :
    assembleProgram ["INC v0, #-1".toList] = .error .immediateOutOfRange ∧
    assembleProgram ["RDLIMB v0, #8".toList] = .error .immediateOutOfRange ∧
    assembleProgram ["ADD v8, v0, v0".toList] = .error .badForm := by decide

/-! ### The commands, on vectors of 95 parts 2.2 to 2.7 -/

theorem test_create_min64 : (after (.create 0 0x8000000000000000#64) (st [])).map (·.readV 0) =
    some (neg [0x0, 0x80000000]) := by decide
theorem test_create_minus_one : (after (.create 0 0xFFFFFFFFFFFFFFFF#64) (st [])).map (·.readV 0) =
    some (neg [0x1]) := by decide
theorem test_toi32_min32 : (after (.toi32 0) (st [neg [0x80000000]])).map State.RES =
    some 0xFFFFFFFF80000000#64 := by decide
theorem test_toi32_range_fault : (after (.toi32 0) (st [pos [0x80000000]])).map (fun t => (t.statusOut, t.RES)) =
    some (0x221#32, 0xA5#64) := by decide
theorem test_toi64_min64 : (after (.toi64 0) (st [neg [0x0, 0x80000000]])).map State.RES =
    some 0x8000000000000000#64 := by decide
theorem test_toi64_range_fault : (after (.toi64 0) (st [neg [0x1, 0x80000000]])).map (fun t => (t.statusOut, t.RES)) =
    some (0x321#32, 0xA5#64) := by decide
theorem test_cmp_negatives : (after (.cmp 0 1) (st [neg [5], neg [7]])).map State.RES = some 1#64 := by decide
theorem test_cmp_by_length : (after (.cmp 0 1) (st [neg [0, 1], neg [0xFFFFFFFF]])).map State.RES =
    some 0xFFFFFFFFFFFFFFFF#64 := by decide
theorem test_add_carry : (after (.add 2 0 1) (st [pos [0xFFFFFFFF], pos [1]])).map (·.readV 2) =
    some (pos [0x0, 0x1]) := by decide
theorem test_add_capacity_fault : (after (.add 2 0 1) (st [maxV, pos [1]])).map (fun t => (t.statusOut, t.readV 2)) =
    some (0x511#32, Value.zero) := by decide
theorem test_sub_smaller_first : (after (.sub 0 0 1) (st [pos [3], pos [5]])).map (·.readV 0) =
    some (neg [0x2]) := by decide
theorem test_sub_borrow : (after (.sub 2 0 1) (st [pos [0x0, 0x1], pos [1]])).map (·.readV 2) =
    some (pos [0xFFFFFFFF]) := by decide
theorem test_inc_crosses_zero : (after (.inc 0 5#64) (st [neg [3]])).map (·.readV 0) = some (pos [2]) := by decide
theorem test_inc_capacity_fault : (after (.inc 0 1#64) (st [maxV])).map (fun t => (t.statusOut, t.readV 0)) =
    some (0x711#32, maxV) := by decide
theorem test_dec_borrows : (after (.dec 1 1#64) (st [Value.zero, pos [0, 0, 1]])).map (·.readV 1) =
    some (pos [0xFFFFFFFF, 0xFFFFFFFF]) := by decide
theorem test_dec_capacity_fault : (after (.dec 0 1#64) (st [minV])).map (fun t => (t.statusOut, t.readV 0)) =
    some (0x811#32, minV) := by decide
theorem test_neg_min64 : (after (.neg 0 0) (st [neg [0x0, 0x80000000]])).map (·.readV 0) =
    some (pos [0x0, 0x80000000]) := by decide
theorem test_neg_zero : (after (.neg 1 0) (st [])).map (·.readV 1) = some Value.zero := by decide
theorem test_mov : (after (.mov 3 0) (st [neg [7]])).map (fun t => (t.readV 3, t.readV 0)) =
    some (neg [7], neg [7]) := by decide
theorem test_rdsgn : (after (.rdsgn 0) (st [neg [0xF]])).map State.RES = some 0xFFFFFFFFFFFFFFFF#64 := by decide
theorem test_rdlen : (after (.rdlen 0) (st [h255])).map State.RES = some 8#64 := by decide
theorem test_rdlimb : (after (.rdlimb 0 7) (st [h255])).map State.RES = some 0x80000000#64 := by decide
theorem test_rdlimb_above_len : (after (.rdlimb 2 7) (st [Value.zero, Value.zero, pos [0, 1]])).map State.RES =
    some 0#64 := by decide

/-! The engine, on vectors of 95 part 2.1. -/

theorem test_engine_subtractor :
    magSub (mag [0x5, 0, 0, 1]) (mag [0, 0, 0, 1]) = .ok (mag [0x5]) ∧
    magSub (mag [3]) (mag [5]) = .error .preconditionViolation := by decide
theorem test_engine_decrementer :
    magDec (mag [0, 0, 0, 1]) 0xFFFFFFFF = .ok (mag [0x1, 0xFFFFFFFF, 0xFFFFFFFF]) ∧
    magDec Mag.zero 1 = .error .preconditionViolation := by decide
theorem test_engine_small_comparison_of_zero : magCompareSmall Mag.zero 0 = .lt := by decide

/-! HALTED and reset (95 parts 2.9 and 3, program P3). -/

theorem test_p3_halts :
    run 3 (launch [.command 0x04000000#32 0x0000000100000000#64, .command 0x08000000#32 0#64,
      .command 0x14800000#32 0#64]) = .fault .halted := rfl
theorem test_reset_leaves_halted :
    step { takeFault .capacityOverflow 0x05#6 (st [maxV]) with host := [.reset] } = .next State.reset := rfl

/-! ### Witnesses: states and operands that meet the statements' hypotheses, at the boundaries -/

/-- A HALTED block with these events to come. -/
def haltedSt (h : List HostEvent) : State := { takeFault .capacityOverflow 0x05#6 (st [maxV]) with host := h }

theorem witness_StepKeepsTheInvariant :
    ∃ s t, s.Inv ∧ step s = .next t ∧ t.readV 0 = minV :=
  ⟨{ st [maxV] with host := [.command 0x24000000#32 0#64] }, _, by decide, rfl, by decide⟩

theorem witness_NoRegisterEverBreaksItsInvariant :
    (∃ i s t, s.RegsInv ∧ exec i s = .next t) ∧
    (∃ cmd din s t, s.RegsInv ∧ s.halted = false ∧ hostStep (.command cmd din) s = .next t ∧ t.halted = true) ∧
    (∃ events k t, k ≤ events.length ∧ k = 1 ∧ run k (launch events) = .next t) :=
  ⟨⟨.mov 1 0, st [maxV], _, by decide, rfl⟩, ⟨0x14000000#32, 0#64, st [h255], _, by decide, by decide, rfl, by decide⟩,
    ⟨[.command 0x04000000#32 5#64], 1, _, by decide, by decide, rfl⟩⟩

theorem witness_DecodeOfEncodeIsTheCommand : ∃ i : Instr, i.wf = true ∧ i = .dec 7 0xFFFFFFFF#64 :=
  ⟨_, by decide, rfl⟩

theorem witness_EncodeOfDecodeIsTheWord : ∃ cmd din i, decode cmd din = .ok i ∧ i.mnemonic = .inc :=
  ⟨0x1C000000#32, 0x00000000FFFFFFFF#64, .inc 0 0xFFFFFFFF#64, by decide, rfl⟩

theorem witness_IllegalCommandsRaiseIllegalCommand :
    State.reset.halted = false ∧ Illegal 0x00000000#32 0#64 ∧ Illegal 0x38000000#32 0#64 ∧
    Illegal 0xFC000000#32 0#64 ∧ Illegal 0x15020001#32 0#64 ∧ Illegal 0x10010000#32 0#64 ∧
    Illegal 0x08800000#32 0#64 ∧ Illegal 0x04100000#32 5#64 ∧ Illegal 0x28020000#32 0#64 ∧
    Illegal 0x1C000000#32 0x0000000100000000#64 ∧ Illegal 0x20000000#32 0x8000000000000000#64 ∧
    ¬ Illegal 0x34020000#32 0#64 ∧ ¬ Illegal 0x1C000000#32 0x00000000FFFFFFFF#64 :=
  ⟨by decide, by decide, by decide, by decide, by decide, by decide, by decide, by decide, by decide, by decide,
    by decide, by decide, by decide⟩

theorem witness_NoWordMatchesTwoRows :
    ∃ (w : CmdWord) (p q : OpRow), p ∈ opcodeTable ∧ q ∈ opcodeTable ∧ w &&& p.mask = p.bits ∧
      w &&& q.mask = q.bits :=
  ⟨0x15020000#32, ⟨.add, 0x05, 0x14000000, 0xFC01FFFF⟩, ⟨.add, 0x05, 0x14000000, 0xFC01FFFF⟩, by decide⟩

theorem witness_OtherCommandsIgnoreDin :
    ∃ cmd : CmdWord, cmd.extractLsb' 26 6 ≠ 0x01#6 ∧ cmd.extractLsb' 26 6 ≠ 0x07#6 ∧
      cmd.extractLsb' 26 6 ≠ 0x08#6 := ⟨0x15020000#32, by decide⟩

theorem witness_AssembledLinesDecode :
    assemble (.create 0 (-2 ^ 63)) = .ok (.create 0 0x8000000000000000#64) ∧
    assemble (.create 0 (2 ^ 63)) = .error .immediateOutOfRange ∧
    assemble (.create 0 (-2 ^ 63 - 1)) = .error .immediateOutOfRange ∧
    assemble (.inc 0 (2 ^ 32 - 1)) = .ok (.inc 0 0xFFFFFFFF#64) ∧
    assemble (.dec 0 (2 ^ 32)) = .error .immediateOutOfRange ∧
    assemble (.rdlimb 0 7) = .ok (.rdlimb 0 7) ∧ assemble (.rdlimb 0 8) = .error .immediateOutOfRange := by decide

/-- A block in RUN whose next event is a decodable command: what StepRunsTheDecodedCommand, EveryCommandEnds,
EveryEventIsFollowedByTheNext and the first clause of HaltedAcceptsNoCommand assume. -/
theorem witness_StepRunsTheDecodedCommand :
    ∃ (s : State) (cmd : CmdWord) (din : Din) (rest : List HostEvent) (i : Instr) (t : State),
      s.halted = false ∧ s.host = .command cmd din :: rest ∧ decode cmd din = .ok i ∧ step s = .next t :=
  ⟨{ st [maxV] with host := [.command 0x24000000#32 0#64, .reset] }, _, _, _, .neg 0 0, _, by decide, rfl, by decide,
    rfl⟩

theorem witness_EveryEventIsFollowedByTheNext :
    (∃ (s : State) (t : State) (rest : List HostEvent), s.host = .reset :: rest ∧ step s = .next t) ∧
    (∃ (s : State) (t : State) (cmd : CmdWord) (din : Din) (rest : List HostEvent),
      s.host = .command cmd din :: rest ∧ step s = .next t) :=
  ⟨⟨haltedSt [.reset], _, _, rfl, rfl⟩, ⟨{ st [] with host := [.command 0x00000000#32 0#64] }, _, _, _, _, rfl, rfl⟩⟩

theorem witness_HaltedAcceptsNoCommand :
    ∃ (s : State) (cmd : CmdWord) (din : Din) (rest : List HostEvent) (t : State), s.halted = true ∧
      s.host = .command cmd din :: rest ∧ (∀ e ∈ s.host, e ≠ .reset) ∧ run 0 s = .next t :=
  ⟨haltedSt [.command 0x30000000#32 0#64], _, _, _, _, by decide, rfl, by decide, rfl⟩

theorem witness_FaultRecordStaysUntilReset :
    (∃ (s : State) (k : Nat) (t : State), s.STATUS.faulted = true ∧ (∀ e ∈ s.host, e ≠ .reset) ∧ run k s = .next t) ∧
    (∃ (s t : State), s.STATUS.faulted = true ∧ step s = .next t) :=
  ⟨⟨haltedSt [], 0, _, by decide, by decide, rfl⟩, ⟨haltedSt [.reset], _, by decide, rfl⟩⟩

theorem witness_ResetWorksFromEveryState :
    (∃ (s s' : State) (rest : List HostEvent), s.halted = true ∧ s'.halted = false ∧ s.host = .reset :: rest ∧
      s'.host = .reset :: rest) ∧
    (∃ s : State, s.halted = true ∧ ∀ rest, s.host ≠ .reset :: rest) :=
  ⟨⟨haltedSt [.reset], { st [h255] with host := [.reset] }, [], by decide, by decide, rfl, rfl⟩,
    ⟨haltedSt [], by decide, by intro rest h; cases h⟩⟩

/-- An execution fault and an illegal command. -/
theorem witness_FaultEntryIsPrecise :
    (∃ (s t : State) (din : Din) (rest : List HostEvent), s.halted = false ∧
      s.host = .command 0x14000000#32 din :: rest ∧ step s = .next t ∧ t.halted = true) ∧
    (∃ (s t : State) (din : Din) (rest : List HostEvent), s.halted = false ∧
      s.host = .command 0xFC000000#32 din :: rest ∧ step s = .next t ∧ t.halted = true) :=
  ⟨⟨{ st [h255] with host := [.command 0x14000000#32 0#64, .reset] }, _, _, _, by decide, rfl, rfl, by decide⟩,
    ⟨{ st [] with host := [.command 0xFC000000#32 0#64] }, _, _, _, by decide, rfl, rfl, by decide⟩⟩

theorem witness_StatusIsWrittenByFaultEntryOnly :
    (∃ i s t, exec i s = .next t ∧ t.STATUS ≠ s.STATUS) ∧ (∃ i s t, exec i s = .next t ∧ t.STATUS = s.STATUS) :=
  ⟨⟨.toi32 0, st [maxV], _, rfl, by decide⟩, ⟨.rdlen 0, st [maxV], _, rfl, by decide⟩⟩

theorem witness_ExactlySixCommandsWriteRes :
    (∃ cmd din s t, s.halted = false ∧ hostStep (.command cmd din) s = .next t ∧ t.halted = true) ∧
    (∃ i s t, exec i s = .next t ∧ t.RES ≠ s.RES) :=
  ⟨⟨0x08000000#32, 0#64, st [maxV], _, by decide, rfl, by decide⟩, ⟨.cmp 0 0, st [], _, rfl, by decide⟩⟩

/-- Each clause of R241 on both sides of its boundary (95 parts 2.5 and 2.6). -/
theorem witness_CapacityOverflowExactly :
    (st [maxV, pos [1]]).RegsInv ∧ (st [minV, neg [1]]).RegsInv ∧
    overflowsCapacity (.add 2 0 1) (st [maxV, pos [1]]) ∧ ¬ overflowsCapacity (.add 2 0 3) (st [maxV, pos [1]]) ∧
    overflowsCapacity (.sub 2 0 1) (st [minV, pos [1]]) ∧ ¬ overflowsCapacity (.sub 2 0 1) (st [maxV, pos [1]]) ∧
    overflowsCapacity (.inc 0 1#64) (st [maxV]) ∧ ¬ overflowsCapacity (.inc 0 0#64) (st [maxV]) ∧
    overflowsCapacity (.dec 0 1#64) (st [minV]) ∧ ¬ overflowsCapacity (.dec 0 0xFFFFFFFF#64) (st [maxV]) := by
  unfold overflowsCapacity; decide

theorem witness_NarrowingOverflowExactly :
    (st [pos [0x80000000], neg [0x80000000], pos [0, 0x80000000], neg [0, 0x80000000]]).RegsInv ∧
    overflowsNarrowing (.toi32 0) (st [pos [0x80000000]]) ∧ ¬ overflowsNarrowing (.toi32 0) (st [neg [0x80000000]]) ∧
    overflowsNarrowing (.toi64 0) (st [pos [0, 0x80000000]]) ∧
    ¬ overflowsNarrowing (.toi64 0) (st [neg [0, 0x80000000]]) ∧ ¬ overflowsNarrowing (.rdlen 0) (st [maxV]) := by
  unfold overflowsNarrowing; decide

theorem witness_PreconditionViolationIsUnreachable :
    ((mag [3]).Inv ∧ (mag [5]).Inv ∧ (mag [3]).val < (mag [5]).val) ∧
    (Mag.zero.Inv ∧ Mag.zero.val < (1 : Limb).toNat) ∧
    (∃ i s t, s.RegsInv ∧ exec i s = .next t ∧ t.STATUS.cause = some .preconditionViolation) :=
  ⟨by decide, by decide,
    ⟨.rdlen 0, { st [] with STATUS := { faulted := true, cause := some .preconditionViolation, fopc := 0x06 } }, _,
      by decide, rfl, by decide⟩⟩

/-- Both ends of a run occur: 95's P1 begins so, and P3. -/
theorem witness_RunEndsInRunOrAtItsFirstFault :
    (∃ t, EndsSuccessfully [.command 0x04000000#32 0x00000000FFFFFFFF#64, .command 0x04800000#32 1#64] t) ∧
    (∀ e ∈ [HostEvent.command 0x04000000#32 0x0000000100000000#64, .command 0x08000000#32 0#64], e ≠ .reset) ∧
    (∃ t, run 2 (launch [.command 0x04000000#32 0x0000000100000000#64, .command 0x08000000#32 0#64]) = .next t ∧
      t.halted = true) :=
  ⟨⟨_, rfl, by decide, by decide⟩, by decide, ⟨_, rfl, by decide⟩⟩

theorem witness_HaltedIsNeverASuccessfulEnd :
    ∃ s t : State, s.halted = true ∧ step s = .next t := ⟨haltedSt [.reset], _, by decide, rfl⟩

theorem witness_Toi32GivesTheInteger :
    (neg [0x80000000]).Inv ∧ (neg [0x80000000]).sval = -2 ^ 31 ∧ (pos [0x7FFFFFFF]).Inv ∧
    (pos [0x7FFFFFFF]).sval = 2 ^ 31 - 1 := by decide

theorem witness_Toi64GivesTheInteger :
    (neg [0, 0x80000000]).Inv ∧ (neg [0, 0x80000000]).sval = -2 ^ 63 ∧ (pos [0xFFFFFFFF, 0x7FFFFFFF]).Inv ∧
    (pos [0xFFFFFFFF, 0x7FFFFFFF]).sval = 2 ^ 63 - 1 := by decide

theorem witness_CmpGivesTheOrder :
    minV.Inv ∧ maxV.Inv ∧ minV.sval < maxV.sval ∧ Value.zero.Inv ∧ Value.zero.sval = Value.zero.sval ∧
    (neg [1]).Inv ∧ (neg [1]).sval < Value.zero.sval := by decide

/-- The sums, differences and steps that reach the largest magnitudes without a fault. -/
theorem witness_AddGivesTheSum :
    h255.Inv ∧ (pos (ones 7 ++ [0x7FFFFFFF])).Inv ∧
    |h255.sval + (pos (ones 7 ++ [0x7FFFFFFF])).sval| = 2 ^ 256 - 1 := by decide

theorem witness_SubGivesTheDifference :
    h255.Inv ∧ (neg (ones 7 ++ [0x7FFFFFFF])).Inv ∧
    |h255.sval - (neg (ones 7 ++ [0x7FFFFFFF])).sval| = 2 ^ 256 - 1 := by decide

theorem witness_IncAddsItsOperand :
    (pos (0xFFFFFFFE :: ones 7)).Inv ∧ (1#64 : Din).extractLsb' 32 32 = 0 ∧
    (pos (0xFFFFFFFE :: ones 7)).sval + (((1#64 : Din).extractLsb' 0 32).toNat : Int) = 2 ^ 256 - 1 := by decide

theorem witness_DecSubtractsItsOperand :
    (neg (0xFFFFFFFE :: ones 7)).Inv ∧ (1#64 : Din).extractLsb' 32 32 = 0 ∧
    (neg (0xFFFFFFFE :: ones 7)).sval - (((1#64 : Din).extractLsb' 0 32).toNat : Int) = -2 ^ 256 + 1 := by decide

theorem witness_WideStepOperandIsIllegal : (0x0000000100000000#64 : Din).extractLsb' 32 32 ≠ 0 := by decide

theorem witness_NegGivesTheOpposite : Value.zero.Inv ∧ minV.Inv ∧ (neg [0, 0x80000000]).Inv := by decide

theorem witness_MovCopiesTheRecord : ∃ rd rs1 : Reg, rd = rs1 := ⟨7, 7, rfl⟩

theorem witness_RdsgnGivesTheSign : minV.sgn = .neg ∧ Value.zero.sgn = .zero ∧ maxV.sgn = .pos := by decide

theorem witness_RdlenGivesTheLength :
    Value.zero.Inv ∧ (neg (zeros 7 ++ [1])).Inv ∧ |(neg (zeros 7 ++ [1])).sval| = 2 ^ 224 := by decide

theorem witness_RdlimbGivesTheLimb : (mag [0, 1]).Inv ∧ (mag [0, 1]).len.val ≤ (2 : LimbIx).val := by decide

theorem witness_OnlyTheDestinationRegisterChanges :
    (∃ i s t, exec i s = .next t ∧ dest i ≠ some 0) ∧ (∃ r q : Reg, q = r) ∧ ∃ r q : Reg, q ≠ r :=
  ⟨⟨.add 1 0 0, st [maxV], _, rfl, by decide⟩, ⟨0, 0, rfl⟩, ⟨0, 7, by decide⟩⟩

theorem witness_OperandsAreReadBeforeTheWrite :
    (pos (ones 7 ++ [0x7FFFFFFF])).Inv ∧ |2 * (pos (ones 7 ++ [0x7FFFFFFF])).sval| < 2 ^ 256 ∧
    maxV.Inv ∧ |maxV.sval - (pos (ones 7 ++ [0x7FFFFFFF])).sval| < 2 ^ 256 := by decide

theorem witness_ReadoutsChangeOnlyRes :
    ∃ i s t j u w, (i.mnemonic = .rdsgn ∨ i.mnemonic = .rdlen ∨ i.mnemonic = .rdlimb) ∧ exec i s = .next t ∧
      exec j s = .next u ∧ exec j t = .next w :=
  ⟨.rdlimb 0 7, st [maxV], _, .add 1 0 2, _, _, by decide, rfl, rfl, rfl⟩

/-- Two different states with the same record in two registers. -/
theorem witness_ReadoutsDetermineTheRecord :
    ∃ s s' : State, s ≠ s' ∧ after (.rdsgn 0) s = after (.rdsgn 1) s ∧ after (.rdlen 0) s = after (.rdlen 1) s ∧
      (∀ k : LimbIx, after (.rdlimb 0 k) s = after (.rdlimb 1 k) s) ∧ s'.readV 0 ≠ s'.readV 1 :=
  ⟨st [neg [5, 6], neg [5, 6]], st [neg [5, 6], pos [5, 6]], by decide⟩

theorem witness_AdderAddsAndCommutes :
    (mag (ones 8)).Inv ∧ (mag [1]).Inv ∧ (mag (ones 3)).Inv ∧
    magAdd (mag [1]) (mag (ones 3)) = .ok (mag [0, 0, 0, 1]) ∧
    magAdd (mag (ones 8)) (mag [1]) = .error .capacityOverflow := by decide

theorem witness_EngineResultsAreNormalized :
    magAdd (mag (ones 8)) Mag.zero = .ok (mag (ones 8)) ∧ magSub (mag (ones 8)) (mag (ones 8)) = .ok Mag.zero ∧
    magInc (mag (0xFFFFFFFE :: ones 7)) 1 = .ok (mag (ones 8)) ∧ magDec (mag [0, 1]) 1 = .ok (mag [0xFFFFFFFF]) ∧
    (∀ i : Fin 8, 3 ≤ i.val → (mag [0x7, 0, 0]).limb[i] = 0) ∧ normalizeBelow (mag [0x7, 0, 0]) 3 = mag [0x7] ∧
    (∃ i s t rd, s.RegsInv ∧ dest i = some rd ∧ exec i s = .next t) :=
  ⟨by decide, by decide, by decide, by decide, by decide, by decide, ⟨.sub 7 0 0, st [maxV], _, 7, by decide, rfl, rfl⟩⟩

theorem witness_EngineResultsHaveTheirValues :
    (mag (ones 8)).Inv ∧ (mag [1]).Inv ∧ magSub (mag (ones 8)) (mag [1]) = .ok (mag (0xFFFFFFFE :: ones 7)) ∧
    magInc (mag [7]) 0xFFFFFFFF = .ok (mag [6, 1]) ∧ magDec (mag [3, 1]) 5 = .ok (mag [0xFFFFFFFE]) := by decide

theorem witness_EngineOverflowsExactlyAtCapacity :
    (mag (ones 8)).Inv ∧ 2 ^ 256 ≤ (mag (ones 8)).val + (mag [1]).val ∧
    2 ^ 256 ≤ (mag (ones 8)).val + (1 : Limb).toNat ∧ ¬ 2 ^ 256 ≤ (mag (ones 8)).val + (0 : Limb).toNat := by decide

theorem witness_ComparatorsOrderByValue :
    (mag [0, 1]).Inv ∧ 1 ≤ (mag [0, 1]).len.val ∧ (mag [7]).Inv ∧ 1 ≤ (mag [7]).len.val ∧ Mag.zero.len = 0 ∧
    Mag.zero.Inv := by decide

theorem witness_RegisterValuesAreExactlyTheRange :
    maxV.Inv ∧ maxV.sval = 2 ^ 256 - 1 ∧ minV.Inv ∧ minV.sval = -(2 ^ 256 - 1) ∧ Value.zero.sval = 0 := by decide

theorem witness_NarrowingOfCreateIsTheInteger :
    (0xFFFFFFFF80000000#64 : Din).toInt = -2 ^ 31 ∧ (0x000000007FFFFFFF#64 : Din).toInt = 2 ^ 31 - 1 := by decide

theorem witness_ComparisonIsATotalOrder :
    minV.Inv ∧ Value.zero.Inv ∧ maxV.Inv ∧ orderInt (scmp minV Value.zero) ≤ 0 ∧ orderInt (scmp Value.zero maxV) ≤ 0 ∧
    scmp maxV maxV = .eq := by decide

/-- `a = 3`, `b = -5`, `c = 0xFFFFFFFF`: both groupings (95 part 1.2). -/
theorem witness_AdditionAndSubtractionLaws :
    (pos [3]).Inv ∧ (neg [5]).Inv ∧ (pos [0xFFFFFFFF]).Inv ∧ sadd (pos [3]) (neg [5]) = .ok (neg [2]) ∧
    sadd (neg [2]) (pos [0xFFFFFFFF]) = .ok (pos [0xFFFFFFFD]) ∧
    sadd (neg [5]) (pos [0xFFFFFFFF]) = .ok (pos [0xFFFFFFFA]) ∧
    sadd (pos [3]) (pos [0xFFFFFFFA]) = .ok (pos [0xFFFFFFFD]) := by decide

/-- `-3`, then up by 5 and down by 5 (95's P2), and at the largest value. -/
theorem witness_IncrementAndDecrementAreInverse :
    (neg [3]).Inv ∧ sstep (neg [3]) 5 .pos = .ok (pos [2]) ∧ sstep (pos [2]) 5 .neg = .ok (neg [3]) ∧
    maxV.Inv ∧ sstep maxV 1 .neg = .ok (pos (0xFFFFFFFE :: ones 7)) ∧
    sstep (pos (0xFFFFFFFE :: ones 7)) 1 .pos = .ok maxV := by decide

end Sys2Proof.Tests
end

section
/-!
The records behind the integers a register can hold (00_scope.md R8): each natural number below `2^256` is the value
of a normalized magnitude, and each integer of the signed range the value of a record that meets Inv-S.
-/

namespace Sys2Proof.Machine

/-- The eight limbs of `v` modulo `2^256`, with no length set. -/
def limbsOfNat (v : Nat) : Mag :=
  { len := 0, limb := Vector.ofFn fun i => BitVec.ofNat 32 (v / 2 ^ (32 * i.val)) }

/-- The magnitude record of `v` modulo `2^256`. -/
def magOfNat (v : Nat) : Mag := normalizeBelow (limbsOfNat v) 8

/-- The signed record of an integer, by its sign and its absolute value. -/
def valueOfInt (n : Int) : Value :=
  { sgn := if n < 0 then .neg else if n = 0 then .zero else .pos, mag := magOfNat n.natAbs }

theorem limbAt_limbsOfNat (v : Nat) {i : Nat} (h : i < 8) :
    (limbsOfNat v).limbAt i = BitVec.ofNat 32 (v / 2 ^ (32 * i)) := by
  rw [limbAt_of_lt _ h]
  simp [limbsOfNat]

/-- The first `n` limbs are the number modulo `2^(32 n)`. -/
theorem valBelow_limbsOfNat (v : Nat) {n : Nat} (h : n ≤ 8) : (limbsOfNat v).valBelow n = v % 2 ^ (32 * n) := by
  induction n with
  | zero => simp [Nat.mod_one]
  | succ n ih =>
    rw [valBelow_succ, limbAt_limbsOfNat v h, BitVec.toNat_ofNat, ih (by omega), pow32_succ, Nat.mod_mul,
      Nat.mul_comm (2 ^ (32 * n))]

theorem magOfNat_spec {v : Nat} (h : v < 2 ^ 256) : (magOfNat v).Inv ∧ (magOfNat v).val = v := by
  obtain ⟨hinv, hval⟩ := normalizeBelow_spec (m := limbsOfNat v) (Nat.le_refl 8) fun i h1 h2 => by omega
  have hv : (limbsOfNat v).val = v := by
    rw [Mag.val_def, valBelow_limbsOfNat v (Nat.le_refl 8), Nat.mod_eq_of_lt h]
  exact ⟨hinv, hval.trans hv⟩

theorem valueOfInt_spec {n : Int} (h : n.natAbs < 2 ^ 256) : (valueOfInt n).Inv ∧ (valueOfInt n).sval = n := by
  obtain ⟨hinv, hval⟩ : (valueOfInt n).mag.Inv ∧ (valueOfInt n).mag.val = n.natAbs := magOfNat_spec h
  rcases Int.lt_trichotomy n 0 with hn | rfl | hn
  · have hs : (valueOfInt n).sgn = .neg := if_pos hn
    refine ⟨⟨hinv, ?_⟩, ?_⟩
    · rw [hs, hval]; exact iff_of_false (by decide) (by omega)
    · rw [sval_of_neg hs, hval]; omega
  · exact ⟨⟨hinv, iff_of_true rfl hval⟩, sval_of_zero rfl⟩
  · have hs : (valueOfInt n).sgn = .pos := by
      rw [valueOfInt, if_neg (by omega), if_neg (by omega)]
    refine ⟨⟨hinv, ?_⟩, ?_⟩
    · rw [hs, hval]; exact iff_of_false (by decide) (by omega)
    · rw [sval_of_pos hs, hval]; omega

/-- Settles O52. Existence is `magOfNat` and `valueOfInt`; uniqueness is that a record which meets the invariants is
fixed by its integer. -/
theorem registerValuesAreExactlyTheRange : Obligations.RegisterValuesAreExactlyTheRange := by
  refine ⟨rfl, rfl, fun m => Nat.le_sub_one_of_lt m.val_lt, ⟨magOfNat (2 ^ 256 - 1), magOfNat_spec (by omega)⟩,
    fun x _ => ?_, fun n hlo hhi => ?_⟩
  · obtain ⟨hlo, hhi⟩ := sval_range x
    omega
  · obtain ⟨hinv, hval⟩ := valueOfInt_spec (n := n) (by omega)
    exact ⟨valueOfInt n, hinv, hval, fun y hy hyn => hy.eq_of_sval_eq hinv (hyn.trans hval.symm)⟩

end Sys2Proof.Machine
end

section
/-!
What one command does, as a function of the value registers alone (10_state.md R36 to R39): it writes one value
register, writes `RES` or takes a fault, and which of these, and with what, depends on nothing else in the state.
-/

namespace Sys2Proof.Machine

/-- What a command does to the block. -/
inductive Effect
  | setV (rd : Reg) (x : Value)
  | setRES (v : BitVec 64)
  | fault (c : Cause)

/-- The state an effect of a command with opcode `opc` gives. -/
def Effect.apply (opc : BitVec 6) (s : State) : Effect → State
  | .setV rd x => s.writeV rd x
  | .setRES v => s.writeRES v
  | .fault c => takeFault c opc s

/-- The value written meets the invariants (10_state.md R36); the fault is not the unreachable one
(60_exceptions.md R243). -/
def Effect.Sound : Effect → Prop
  | .setV _ x => x.Inv
  | .setRES _ => True
  | .fault c => c ≠ .preconditionViolation

/-- The effect of a command that writes `V[rd]`, from its result. -/
def Effect.ofV (rd : Reg) : Except Cause Value → Effect
  | .ok x => .setV rd x
  | .error c => .fault c

/-- The effect of a command that writes `RES`, from its result. -/
def Effect.ofRES : Except Cause (BitVec 64) → Effect
  | .ok v => .setRES v
  | .error c => .fault c

theorem finishV_eq_effect (mn : Mnemonic) (rd : Reg) (result : Except Cause Value) (s : State) :
    finishV mn rd result s = .next ((Effect.ofV rd result).apply mn.opcode s) := by
  cases result <;> rfl

theorem finishRES_eq_effect (mn : Mnemonic) (result : Except Cause (BitVec 64)) (s : State) :
    finishRES mn result s = .next ((Effect.ofRES result).apply mn.opcode s) := by
  cases result <;> rfl

/-- The form of the façade's specification lemmas: a record that meets the invariants, or a capacity overflow. -/
theorem ofV_sound {result : Except Cause Value} {P : Value → Prop} {Q : Prop} (rd : Reg)
    (h : (∃ r, result = .ok r ∧ r.Inv ∧ P r) ∨ (result = .error .capacityOverflow ∧ Q)) :
    (Effect.ofV rd result).Sound := by
  rcases h with ⟨r, rfl, hr, -⟩ | ⟨rfl, -⟩
  · exact hr
  · simp [Effect.ofV, Effect.Sound]

theorem illegalCommand_sound : (Effect.fault .illegalCommand).Sound := by simp [Effect.Sound]

/-- A narrowing conversion, its result put into `RES` by `g`, faults with its own overflow only
(41_conversion.md R154). -/
theorem ofRES_map_narrow_sound {x : Value} (hx : x.Inv) {n : Nat} (hn : n = 32 ∨ n = 64)
    (g : BitVec n → BitVec 64) : (Effect.ofRES ((narrow x n).map g)).Sound := by
  rcases narrow_spec hx hn with ⟨-, -, h⟩ | ⟨-, h⟩ <;> rw [h]
  · trivial
  · simp [Except.map, Effect.ofRES, Effect.Sound]

/-- The command's effect is one function of the registers, sound where they meet their invariants. -/
def HasEffect (i : Instr) : Prop :=
  ∃ E : (Reg → Value) → Effect, (∀ s : State, exec i s = .next ((E s.readV).apply i.opcode s)) ∧
    ∀ V : Reg → Value, (∀ r, (V r).Inv) → (E V).Sound

theorem hasEffect_of_finishV {i : Instr} {rd : Reg} (f : (Reg → Value) → Except Cause Value)
    (hexec : ∀ s : State, exec i s = finishV i.mnemonic rd (f s.readV) s)
    (hsound : ∀ V : Reg → Value, (∀ r, (V r).Inv) → (Effect.ofV rd (f V)).Sound) : HasEffect i :=
  ⟨fun V => .ofV rd (f V), fun s => (hexec s).trans (finishV_eq_effect i.mnemonic rd (f s.readV) s), hsound⟩

theorem hasEffect_of_finishRES {i : Instr} (f : (Reg → Value) → Except Cause (BitVec 64))
    (hexec : ∀ s : State, exec i s = finishRES i.mnemonic (f s.readV) s)
    (hsound : ∀ V : Reg → Value, (∀ r, (V r).Inv) → (Effect.ofRES (f V)).Sound) : HasEffect i :=
  ⟨fun V => .ofRES (f V), fun s => (hexec s).trans (finishRES_eq_effect i.mnemonic (f s.readV) s), hsound⟩

theorem hasEffect_of_illegal {i : Instr}
    (hexec : ∀ s : State, exec i s = .next (takeFault .illegalCommand i.opcode s)) : HasEffect i :=
  ⟨fun _ => .fault .illegalCommand, hexec, fun _ _ => illegalCommand_sound⟩

theorem exec_hasEffect (i : Instr) : HasEffect i := by
  cases i with
  | create rd din =>
    exact hasEffect_of_finishV (fun _ => .ok (screate din)) (exec_create rd din) fun _ _ => (screate_spec din).1
  | toi32 rs1 =>
    exact hasEffect_of_finishRES (fun V => (narrow (V rs1) 32).map (BitVec.signExtend 64)) (exec_toi32 rs1)
      fun V hV => ofRES_map_narrow_sound (hV rs1) (.inl rfl) _
  | toi64 rs1 =>
    exact hasEffect_of_finishRES (fun V => narrow (V rs1) 64) (exec_toi64 rs1)
      fun V hV => by simpa using ofRES_map_narrow_sound (hV rs1) (.inr rfl) id
  | cmp rs1 rs2 =>
    exact hasEffect_of_finishRES (fun V => .ok (resOfInt (orderInt (scmp (V rs1) (V rs2))))) (exec_cmp rs1 rs2)
      fun _ _ => trivial
  | add rd rs1 rs2 =>
    exact hasEffect_of_finishV (fun V => sadd (V rs1) (V rs2)) (exec_add rd rs1 rs2)
      fun V hV => ofV_sound rd (sadd_spec (hV rs1) (hV rs2))
  | sub rd rs1 rs2 =>
    exact hasEffect_of_finishV (fun V => ssub (V rs1) (V rs2)) (exec_sub rd rs1 rs2)
      fun V hV => ofV_sound rd (ssub_spec (hV rs1) (hV rs2))
  | inc rd din =>
    cases hf : dinFitsLimb din with
    | true =>
      exact hasEffect_of_finishV (fun V => sstep (V rd) (limbOperand din) .pos) (exec_inc rd din · hf)
        fun V hV => ofV_sound rd (sstep_spec (hV rd) (limbOperand din) (by decide))
    | false => exact hasEffect_of_illegal (execInc_illegal hf)
  | dec rd din =>
    cases hf : dinFitsLimb din with
    | true =>
      exact hasEffect_of_finishV (fun V => sstep (V rd) (limbOperand din) .neg) (exec_dec rd din · hf)
        fun V hV => ofV_sound rd (sstep_spec (hV rd) (limbOperand din) (by decide))
    | false => exact hasEffect_of_illegal (execDec_illegal hf)
  | neg rd rs1 =>
    exact hasEffect_of_finishV (fun V => .ok (sneg (V rs1))) (exec_neg rd rs1) fun V hV => (sneg_spec (hV rs1)).1
  | mov rd rs1 => exact hasEffect_of_finishV (fun V => .ok (V rs1)) (exec_mov rd rs1) fun V hV => hV rs1
  | rdsgn rs1 =>
    exact hasEffect_of_finishRES (fun V => .ok (resOfInt (V rs1).sgn.toInt)) (exec_rdsgn rs1) fun _ _ => trivial
  | rdlen rs1 =>
    exact hasEffect_of_finishRES (fun V => .ok (BitVec.ofNat 64 (V rs1).mag.len.val)) (exec_rdlen rs1)
      fun _ _ => trivial
  | rdlimb rs1 k =>
    exact hasEffect_of_finishRES (fun V => .ok (((V rs1).mag.limbAt k.val).setWidth 64)) (exec_rdlimb rs1 k)
      fun _ _ => trivial

/-- Noninterference: what `RES`, `STATUS` and the host's events hold has no part in what a command does. -/
theorem exec_of_same_registers {i : Instr} {s t s' : State} (h : exec i s = .next t) (hV : s'.readV = s.readV) :
    ∃ e : Effect, t = e.apply i.opcode s ∧ exec i s' = .next (e.apply i.opcode s') := by
  obtain ⟨E, hE, -⟩ := exec_hasEffect i
  exact ⟨E s.readV, Host.Outcome.next.inj (h.symm.trans (hE s)), hV ▸ hE s'⟩

theorem exec_sound_effect {i : Instr} {s t : State} (hs : s.RegsInv) (h : exec i s = .next t) :
    ∃ e : Effect, e.Sound ∧ t = e.apply i.opcode s := by
  obtain ⟨E, hE, hsound⟩ := exec_hasEffect i
  exact ⟨E s.readV, hsound s.readV hs, Host.Outcome.next.inj (h.symm.trans (hE s))⟩

/-! ### A sound effect keeps the invariants -/

theorem Effect.Sound.keeps_regsInv {e : Effect} (he : e.Sound) {s : State} (hs : s.RegsInv) (opc : BitVec 6) :
    (e.apply opc s).RegsInv := by
  cases e with
  | setV rd x =>
    intro r
    show ((s.writeV rd x).readV r).Inv
    rw [readV_writeV]
    split
    · exact he
    · exact hs r
  | setRES v => exact hs
  | fault c => exact hs

theorem Effect.Sound.keeps_statusInv {e : Effect} (he : e.Sound) {s : State} (hs : s.STATUS.Inv) (opc : BitVec 6) :
    (e.apply opc s).STATUS.Inv := by
  cases e with
  | setV rd x => exact hs
  | setRES v => exact hs
  | fault c =>
    refine ⟨fun h => absurd h (by simp [Effect.apply]), fun _ => ?_⟩
    cases c with
    | capacityOverflow => exact .inl rfl
    | narrowingOverflow => exact .inr (.inl rfl)
    | preconditionViolation => exact absurd rfl he
    | illegalCommand => exact .inr (.inr rfl)

end Sys2Proof.Machine
end

section
/-!
What a presented command and a step can do, said once: the ways a step reaches a next state, and what each of them
leaves (30_encoding.md R81; 60_exceptions.md R246, R247, R250).
-/

namespace Sys2Proof.Machine

/-- A command is accepted in RUN only; then it executes as a command or is illegal. -/
theorem hostStep_command_cases {cmd : CmdWord} {din : Din} {s t : State}
    (h : hostStep (.command cmd din) s = .next t) :
    s.halted = false ∧ ((∃ i, exec i s = .next t) ∨ t = takeFault .illegalCommand (opcOf cmd) s) := by
  cases hr : s.halted with
  | true => simp [hostStep, hr] at h
  | false =>
    have ha : acceptCommand cmd din s = .next t := by simpa [hostStep, hr] using h
    rcases acceptCommand_cases cmd din s with ⟨i, -, hi⟩ | ⟨_, -, he⟩
    · exact ⟨rfl, .inl ⟨i, hi.symm.trans ha⟩⟩
    · exact ⟨rfl, .inr (Host.Outcome.next.inj (ha.symm.trans he))⟩

theorem hostStep_sound_effect {cmd : CmdWord} {din : Din} {s t : State} (hs : s.RegsInv)
    (h : hostStep (.command cmd din) s = .next t) : ∃ (e : Effect) (opc : BitVec 6), e.Sound ∧ t = e.apply opc s := by
  rcases (hostStep_command_cases h).2 with ⟨i, hi⟩ | ht
  · obtain ⟨e, he, hte⟩ := exec_sound_effect hs hi
    exact ⟨e, i.opcode, he, hte⟩
  · exact ⟨.fault .illegalCommand, opcOf cmd, illegalCommand_sound, ht⟩

/-- A presented command that leaves the block in HALTED has taken a fault and done nothing else. -/
theorem hostStep_command_halts {cmd : CmdWord} {din : Din} {s t : State}
    (h : hostStep (.command cmd din) s = .next t) (ht : t.halted = true) : ∃ c opc, t = takeFault c opc s := by
  obtain ⟨hr, ⟨i, hi⟩ | hf⟩ := hostStep_command_cases h
  · obtain ⟨c, hc⟩ := exec_halts hi hr ht
    exact ⟨c, i.opcode, hc⟩
  · exact ⟨.illegalCommand, opcOf cmd, hf⟩

theorem exec_host {i : Instr} {s t : State} (h : exec i s = .next t) : t.host = s.host := by
  rcases exec_shape i s with ⟨rd, x, -, g⟩ | ⟨v, -, g⟩ | ⟨c, g⟩ <;> cases g.symm.trans h <;> rfl

theorem hostStep_command_host {cmd : CmdWord} {din : Din} {s t : State}
    (h : hostStep (.command cmd din) s = .next t) : t.host = s.host := by
  rcases (hostStep_command_cases h).2 with ⟨i, hi⟩ | ht
  · exact exec_host hi
  · rw [ht, takeFault_host]

theorem acceptCommand_total (cmd : CmdWord) (din : Din) (s : State) : ∃ t, acceptCommand cmd din s = .next t := by
  rcases acceptCommand_cases cmd din s with ⟨i, -, h⟩ | ⟨_, -, h⟩
  · rcases exec_shape i s with ⟨_, _, -, g⟩ | ⟨_, -, g⟩ | ⟨_, g⟩ <;> exact ⟨_, h.trans g⟩
  · exact ⟨_, h⟩

/-- The three kinds of step: an idle one in RUN, a reset, and a command accepted. -/
theorem step_cases {s t : State} (h : step s = .next t) :
    (s.host = [] ∧ s.halted = false ∧ t = s) ∨
    (∃ rest, s.host = .reset :: rest ∧ t = resetBlock { s with host := rest }) ∨
    (∃ cmd din rest, s.host = .command cmd din :: rest ∧
      hostStep (.command cmd din) { s with host := rest } = .next t) := by
  rcases hh : s.host with _ | ⟨_ | ⟨cmd, din⟩, rest⟩
  · rw [step_idle hh, idleStep] at h
    cases hr : s.halted with
    | true => simp [hr] at h
    | false =>
      rw [hr] at h
      cases h
      exact .inl ⟨rfl, rfl, rfl⟩
  · rw [step_reset hh] at h
    cases h
    exact .inr (.inl ⟨rest, rfl, rfl⟩)
  · rw [step, hh] at h
    exact .inr (.inr ⟨cmd, din, rest, rfl, h⟩)

/-- A run of a HALTED block whose host presents no reset is at its start (60_exceptions.md R247). -/
theorem run_of_halted {s t : State} {k : Nat} (h : s.halted = true) (hr : ∀ e ∈ s.host, e ≠ .reset)
    (hrun : run k s = .next t) : t = s := by
  cases k with
  | zero => exact (Host.Outcome.next.inj hrun).symm
  | succ k => cases (run_halted h hr k).symm.trans hrun

end Sys2Proof.Machine
end

section
/-!
The invariants of the state (10_state.md R32 to R36, R39, R49): they hold at reset and every step keeps them, so no
run leaves them.
-/

namespace Sys2Proof.Machine

theorem reset_regsInv : State.reset.RegsInv := fun r => readV_reset r ▸ Value.zero_inv

theorem clear_inv : Status.clear.Inv := by decide

/-- A launch state is the reset state but for the host's events, of which the invariants do not speak. -/
theorem launch_inv (events : List HostEvent) : (launch events).Inv := ⟨reset_regsInv, clear_inv⟩

theorem step_keeps_inv {s t : State} (hs : s.Inv) (h : step s = .next t) : t.Inv := by
  rcases step_cases h with ⟨-, -, rfl⟩ | ⟨rest, -, rfl⟩ | ⟨cmd, din, rest, -, hcmd⟩
  · exact hs
  · exact launch_inv rest
  · obtain ⟨hregs, hstatus⟩ : { s with host := rest }.Inv := hs
    obtain ⟨e, opc, he, rfl⟩ := hostStep_sound_effect hregs hcmd
    exact ⟨he.keeps_regsInv hregs opc, he.keeps_statusInv hstatus opc⟩

/-- Settles O3, by the kinds of step: an idle one keeps the state, a reset gives a launch state, and a command has a
sound effect. -/
theorem stepKeepsTheInvariant : Obligations.StepKeepsTheInvariant :=
  fun _ _ => step_keeps_inv

/-- Settles O4: a command has a sound effect, a fault leaves the registers, and a run from reset keeps the invariant
of the whole state. -/
theorem noRegisterEverBreaksItsInvariant : Obligations.NoRegisterEverBreaksItsInvariant := by
  refine ⟨fun i s t hs h => ?_, fun cmd din s t hs h => ?_, fun cmd din s t _ h ht r => ?_, reset_regsInv,
    fun events k t _ h => ?_⟩
  · obtain ⟨e, he, rfl⟩ := exec_sound_effect hs h
    exact he.keeps_regsInv hs i.opcode
  · obtain ⟨e, opc, he, rfl⟩ := hostStep_sound_effect hs h
    exact he.keeps_regsInv hs opc
  · obtain ⟨c, opc, rfl⟩ := hostStep_command_halts h ht
    exact readV_takeFault c opc s r
  · exact (run_induction (P := State.Inv) (fun _ _ => step_keeps_inv) k (launch events) t (launch_inv events) h).1

/-- Settles O2: the registers are the canonical zero and `STATUS` is clear. -/
theorem resetMeetsTheInvariant : Obligations.ResetMeetsTheInvariant := ⟨reset_regsInv, clear_inv⟩

/-- Settles O1: every register is the canonical zero, and the rest is read off. -/
theorem resetLeavesTheListedValues : Obligations.ResetLeavesTheListedValues := by
  refine ⟨fun r => ?_, by decide⟩
  rw [readV_reset]
  decide

end Sys2Proof.Machine
end

section
/-!
The host's events, HALTED and STATUS (10_state.md R39, R40, R44 to R46).
-/

namespace Sys2Proof.Machine

/-- Settles O16, by the kinds of step: an idle step takes no event, and neither reset nor a command touches the
events that are left. -/
theorem everyEventIsFollowedByTheNext : Obligations.EveryEventIsFollowedByTheNext := by
  intro s t e rest hhost h
  rcases step_cases h with ⟨hnil, -, -⟩ | ⟨rest', hr, rfl⟩ | ⟨cmd, din, rest', hc, hcmd⟩
  · cases hhost.symm.trans hnil
  · cases hhost.symm.trans hr
    rfl
  · cases hhost.symm.trans hc
    exact hostStep_command_host hcmd

/-- Settles O17: acceptance is total in RUN, and without a reset a HALTED block takes no step. -/
theorem haltedAcceptsNoCommand : Obligations.HaltedAcceptsNoCommand := by
  refine ⟨fun s hr => ⟨by simp [State.cmdReady, hr], fun cmd din rest hhost => ?_⟩,
    fun s hh => ⟨by simp [State.cmdReady, hh], fun cmd din rest hhost => ?_, fun k t hnr hrun => ?_⟩⟩
  · obtain ⟨t, ht⟩ := acceptCommand_total cmd din { s with host := rest }
    have hstep : step s = .next t := (step_command hhost hr).trans ht
    exact ⟨t, hstep, everyEventIsFollowedByTheNext s t _ rest hhost hstep⟩
  · exact step_halted hh fun rest' hreset => by cases hhost.symm.trans hreset
  · simp [run_of_halted hh hnr hrun, State.cmdReady, hh]

/-- Settles O18: without a reset a HALTED block takes no step, and the other kinds of step begin in RUN. -/
theorem faultRecordStaysUntilReset : Obligations.FaultRecordStaysUntilReset := by
  refine ⟨fun s t k hf hnr hrun => by rw [run_of_halted hf hnr hrun], fun s t hf h => ?_⟩
  have hne : s.halted ≠ false := by simp [State.halted, hf]
  rcases step_cases h with ⟨-, hr, -⟩ | ⟨rest, hreset, -⟩ | ⟨cmd, din, rest, -, hcmd⟩
  · exact absurd hr hne
  · exact ⟨rest, hreset⟩
  · exact absurd (hostStep_command_cases hcmd).1 hne

/-- Settles O22: of the three ends of a command only the fault writes `STATUS`, and its effect is the same whatever
`STATUS` holds. -/
theorem statusIsWrittenByFaultEntryOnly : Obligations.StatusIsWrittenByFaultEntryOnly := by
  refine ⟨fun i s t h => ?_, fun i s t st h => ?_⟩
  · rcases exec_shape i s with ⟨rd, x, -, g⟩ | ⟨v, -, g⟩ | ⟨c, g⟩ <;> cases g.symm.trans h
    · exact .inl rfl
    · exact .inl rfl
    · exact .inr ⟨c, fun _ => rfl, rfl, rfl, rfl, rfl, rfl⟩
  · obtain ⟨e, rfl, h'⟩ := exec_of_same_registers (s' := { s with STATUS := st }) h rfl
    refine ⟨_, h', ?_⟩
    cases e with
    | setV rd x => exact ⟨rfl, rfl, rfl, .inr ⟨rfl, rfl⟩⟩
    | setRES v => exact ⟨rfl, rfl, rfl, .inr ⟨rfl, rfl⟩⟩
    | fault c => exact ⟨rfl, rfl, rfl, .inl rfl⟩

/-- Five bit fields put together, each read back where it stands. The appends are resolved before `simp`, which would
add up their widths and then see no append. -/
theorem fields_of_append (z : BitVec 18) (f : BitVec 6) (c : BitVec 4) (r : BitVec 3) (b : BitVec 1) :
    (z ++ f ++ c ++ r ++ b).extractLsb' 0 1 = b ∧ (z ++ f ++ c ++ r ++ b).extractLsb' 1 3 = r ∧
    (z ++ f ++ c ++ r ++ b).extractLsb' 4 4 = c ∧ (z ++ f ++ c ++ r ++ b).extractLsb' 8 6 = f ∧
    (z ++ f ++ c ++ r ++ b).extractLsb' 14 18 = z := by
  simp only [BitVec.extractLsb'_append_eq_ite]
  simp

/-- The fields of the status word (10_state.md R39). -/
theorem status_word_fields (st : Status) :
    st.word.extractLsb' 0 1 = BitVec.ofBool st.faulted ∧ st.word.extractLsb' 1 3 = 0 ∧
    st.word.extractLsb' 4 4 = causeCode st.cause ∧ st.word.extractLsb' 8 6 = st.fopc ∧
    st.word.extractLsb' 14 18 = 0 :=
  fields_of_append 0 st.fopc (causeCode st.cause) 0 (BitVec.ofBool st.faulted)

theorem ofBool_eq_one_iff (b : Bool) : BitVec.ofBool b = 1 ↔ b = true := by
  cases b <;> decide

theorem causeCode_le (c : Option Cause) : causeCode c ≤ 4 := by
  rcases c with _ | c
  · decide
  · cases c <;> decide

/-- Settles O21: the outputs are the fields of the status word. -/
theorem statusFieldsAndReservedBits : Obligations.StatusFieldsAndReservedBits := by
  intro s
  obtain ⟨hfaulted, hlow, hcause, hfopc, hhigh⟩ := status_word_fields s.STATUS
  have hbit : s.statusOut.extractLsb' 0 1 = 1 ↔ s.STATUS.faulted = true := by
    rw [State.statusOut, hfaulted, ofBool_eq_one_iff]
  refine ⟨hbit, hlow, hcause, causeCode_le s.STATUS.cause, hfopc, hhigh, ?_⟩
  rw [hbit]
  simp [State.cmdReady, State.halted]

end Sys2Proof.Machine
end

section
/-!
What a command writes: its destination register and no other (10_state.md R37), and `RES` by six commands
(10_state.md R38).
-/

namespace Sys2Proof.Machine

/-- Settles O43: of the three ends of a command only one writes a register, and that is its destination. -/
theorem onlyTheDestinationRegisterChanges : Obligations.OnlyTheDestinationRegisterChanges := by
  refine ⟨fun i s t h q hq => ?_, fun s r q x => readV_writeV s r q x⟩
  rcases exec_shape i s with ⟨rd, x, hd, g⟩ | ⟨v, -, g⟩ | ⟨c, g⟩ <;> cases g.symm.trans h
  · exact readV_writeV_ne s rd q x fun hqr => hq (hqr ▸ hd)
  · rfl
  · rfl

/-- The commands without a destination register are the six that write `RES` (30_encoding.md R89). -/
theorem dest_eq_none_iff (i : Instr) : dest i = none ↔
    (i.mnemonic = .toi32 ∨ i.mnemonic = .toi64 ∨ i.mnemonic = .cmp ∨ i.mnemonic = .rdsgn ∨ i.mnemonic = .rdlen ∨
      i.mnemonic = .rdlimb) := by
  cases i <;> simp [dest, Instr.mnemonic]

/-- Where every register is zero, each of the six commands that write `RES` writes 0. -/
theorem exec_of_zero_registers {i : Instr} (hd : dest i = none) {s : State} (hV : ∀ r, s.readV r = Value.zero) :
    exec i s = .next (s.writeRES 0) := by
  cases i with
  | toi32 rs1 => rw [exec_toi32, hV]; rfl
  | toi64 rs1 => rw [exec_toi64, hV]; rfl
  | cmp rs1 rs2 => rw [exec_cmp, hV, hV]; rfl
  | rdsgn rs1 => rw [exec_rdsgn, hV]; rfl
  | rdlen rs1 => rw [exec_rdlen, hV]; rfl
  | rdlimb rs1 k => rw [exec_rdlimb, hV, show Value.zero.mag = Mag.zero from rfl, limbAt_zero]; rfl
  | create | add | sub | inc | dec | neg | mov => cases hd

/-- A command changes `RES` in some state exactly when it names no destination register. -/
theorem writes_RES_iff (i : Instr) : (∃ s t, exec i s = .next t ∧ t.RES ≠ s.RES) ↔ dest i = none := by
  constructor
  · rintro ⟨s, t, h, hne⟩
    rcases exec_shape i s with ⟨rd, x, -, g⟩ | ⟨v, hd, -⟩ | ⟨c, g⟩
    · cases g.symm.trans h
      exact absurd rfl hne
    · exact hd
    · cases g.symm.trans h
      exact absurd rfl hne
  · intro hd
    exact ⟨{ State.reset with RES := 1 }, _, exec_of_zero_registers hd readV_reset, by decide⟩

/-- Settles O23: the six commands are those without a destination register, a fault leaves `RES`, and a command's
effect is the same whatever `RES` holds. -/
theorem exactlySixCommandsWriteRes : Obligations.ExactlySixCommandsWriteRes := by
  refine ⟨fun i => (writes_RES_iff i).trans (dest_eq_none_iff i), fun cmd din s t _ h ht => ?_, fun _ => rfl,
    fun i s t v h => ?_⟩
  · obtain ⟨c, opc, rfl⟩ := hostStep_command_halts h ht
    rfl
  · obtain ⟨e, rfl, h'⟩ := exec_of_same_registers (s' := { s with RES := v }) h rfl
    refine ⟨_, h', ?_⟩
    cases e with
    | setV rd x => exact ⟨rfl, rfl, .inr ⟨rfl, rfl⟩⟩
    | setRES w => exact ⟨rfl, rfl, .inl rfl⟩
    | fault c => exact ⟨rfl, rfl, .inr ⟨rfl, rfl⟩⟩

end Sys2Proof.Machine
end

section
/-!
Encoding and decoding (30_encoding.md R82 to R96): the decoder and the encoder are inverse to each other, and what the
decoder refuses is what R90 lists.
-/

namespace Sys2Proof

/-! ### The row of a word -/

theorem opcode_of_match {w : CmdWord} {row : OpRow} (h : row ∈ opcodeTable) (hm : w &&& row.mask = row.bits) :
    w.extractLsb' 26 6 = row.opc := by
  obtain ⟨hopc, -⟩ := (row_match_iff w h).mp hm
  exact hopc

/-- A row that matches a word has the word's opcode, and an opcode belongs to one row. -/
theorem row_eq_of_match {w : CmdWord} {p q : OpRow} (hp : p ∈ opcodeTable) (hq : q ∈ opcodeTable)
    (hpw : w &&& p.mask = p.bits) (hqw : w &&& q.mask = q.bits) : p = q :=
  row_eq_of_opc p hp q hq ((opcode_of_match hp hpw).symm.trans (opcode_of_match hq hqw))

theorem findRow_of_match {cmd : CmdWord} {row : OpRow} (h : row ∈ opcodeTable) (hm : cmd &&& row.mask = row.bits) :
    findRow cmd = some row := by
  cases hf : findRow cmd with
  | none => exact absurd hm (findRow_none hf row h)
  | some row' =>
    obtain ⟨h', hm'⟩ := findRow_some hf
    rw [row_eq_of_match h' h hm' hm]

theorem decode_of_findRow {cmd : CmdWord} {row : OpRow} (h : findRow cmd = some row) (din : Din) :
    decode cmd din =
      if row.mn.takesLimb && !dinFitsLimb din then .error .dinTooWide else .ok (buildInstr row.mn cmd din) := by
  rw [decode, h]

/-- With no row, the answer is an error that does not depend on the operand. -/
theorem decode_of_findRow_none {cmd : CmdWord} (h : findRow cmd = none) :
    ∃ e, ∀ din, decode cmd din = .error e := by
  cases hopc : opcodeTable.any fun row => row.opc == opcOf cmd with
  | true => exact ⟨.mustBeZero, fun din => by simp only [decode, h, hopc, if_true]⟩
  | false => exact ⟨.unassignedOpcode, fun din => by simp [decode, h, hopc]⟩

theorem decode_of_match {cmd : CmdWord} {din : Din} {row : OpRow} (h : row ∈ opcodeTable)
    (hm : cmd &&& row.mask = row.bits) (hfit : row.mn.takesLimb = true → dinFitsLimb din = true) :
    decode cmd din = .ok (buildInstr row.mn cmd din) := by
  rw [decode_of_findRow (findRow_of_match h hm)]
  refine if_neg fun hwide => ?_
  obtain ⟨hlimb, hnot⟩ := (Bool.and_eq_true _ _).mp hwide
  simp [hfit hlimb] at hnot

/-! ### The command a row builds -/

@[simp] theorem mnemonic_buildInstr (mn : Mnemonic) (cmd : CmdWord) (din : Din) :
    (buildInstr mn cmd din).mnemonic = mn := by cases mn <;> rfl

@[simp] theorem wf_buildInstr (mn : Mnemonic) (cmd : CmdWord) (din : Din) :
    (buildInstr mn cmd din).wf = (!mn.takesLimb || dinFitsLimb din) := by cases mn <;> rfl

theorem encodeDin_buildInstr {mn : Mnemonic} (h : mn = .create ∨ mn = .inc ∨ mn = .dec) (cmd : CmdWord) (din : Din) :
    encodeDin (buildInstr mn cmd din) = din := by
  rcases h with rfl | rfl | rfl <;> rfl

/-- The word of the command a row builds: the fields the row uses, and zero in the others (30_encoding.md R85, R89). -/
theorem encodeWord_buildInstr_fields (mn : Mnemonic) (cmd : CmdWord) (din : Din) :
    encodeWord (buildInstr mn cmd din) = packWord mn.opcode
      (if Machine.unusedRd mn.opcode then 0 else rdOf cmd) (if Machine.unusedRs1 mn.opcode then 0 else rs1Of cmd)
      (if Machine.unusedRs2 mn.opcode then 0 else rs2Of cmd) := by
  cases mn <;> rfl

/-- A field that is zero where it is unused is the field the encoder writes. -/
theorem field3_eq_ite {cmd : CmdWord} {lo : Nat} {unused : Prop} [Decidable unused]
    (h : unused → cmd.extractLsb' lo 3 = 0#3) : field3 cmd lo = if unused then 0 else field3 cmd lo := by
  split
  · exact field3_zero (h ‹_›)
  · rfl

theorem encodeWord_buildInstr {cmd : CmdWord} {row : OpRow} (h : row ∈ opcodeTable)
    (hm : cmd &&& row.mask = row.bits) (din : Din) : encodeWord (buildInstr row.mn cmd din) = cmd := by
  obtain ⟨hopc, hrsv, hrd, hrs1, hrs2⟩ := (row_match_iff cmd h).mp hm
  rw [encodeWord_buildInstr_fields, packWord_eq_iff, ← opcodeTable_opc row h]
  exact ⟨hopc, field3_eq_ite hrd, field3_eq_ite hrs1, field3_eq_ite hrs2, hrsv⟩

/-! ### The row and the fields of an encoded word -/

theorem findRow_encodeWord (i : Instr) : ∃ row, findRow (encodeWord i) = some row ∧ row.mn = i.mnemonic := by
  have hrow : Laws.RowOfWord.Statement i := by
    cases i with
    | create rd din => exact Laws.RowOfWord.create rd din
    | toi32 rs1 => exact Laws.RowOfWord.toi32 rs1
    | toi64 rs1 => exact Laws.RowOfWord.toi64 rs1
    | cmp rs1 rs2 => exact Laws.RowOfWord.cmp rs1 rs2
    | add rd rs1 rs2 => exact Laws.RowOfWord.add rd rs1 rs2
    | sub rd rs1 rs2 => exact Laws.RowOfWord.sub rd rs1 rs2
    | inc rd din => exact Laws.RowOfWord.inc rd din
    | dec rd din => exact Laws.RowOfWord.dec rd din
    | neg rd rs1 => exact Laws.RowOfWord.neg rd rs1
    | mov rd rs1 => exact Laws.RowOfWord.mov rd rs1
    | rdsgn rs1 => exact Laws.RowOfWord.rdsgn rs1
    | rdlen rs1 => exact Laws.RowOfWord.rdlen rs1
    | rdlimb rs1 k => exact Laws.RowOfWord.rdlimb rs1 k
  obtain ⟨hmn, -⟩ := hrow
  exact Option.map_eq_some_iff.mp hmn

@[simp] theorem rdOf_packWord (opc : BitVec 6) (rd rs1 rs2 : Fin 8) : rdOf (packWord opc rd rs1 rs2) = rd := by
  obtain ⟨-, h, -⟩ := fields_of_packWord opc rd rs1 rs2
  exact h

@[simp] theorem rs1Of_packWord (opc : BitVec 6) (rd rs1 rs2 : Fin 8) : rs1Of (packWord opc rd rs1 rs2) = rs1 := by
  obtain ⟨-, -, h, -⟩ := fields_of_packWord opc rd rs1 rs2
  exact h

@[simp] theorem rs2Of_packWord (opc : BitVec 6) (rd rs1 rs2 : Fin 8) : rs2Of (packWord opc rd rs1 rs2) = rs2 := by
  obtain ⟨-, -, -, h, -⟩ := fields_of_packWord opc rd rs1 rs2
  exact h

/-- The operands come back from the fields of the encoded word. -/
@[simp] theorem buildInstr_encodeWord (i : Instr) : buildInstr i.mnemonic (encodeWord i) (encodeDin i) = i := by
  cases i <;> simp [buildInstr, Instr.mnemonic, encodeWord, encodeDin]

/-- A well-formed command passes the operand check of its row (30_encoding.md R86). -/
theorem takesLimb_and_wide_eq_not_wf (i : Instr) : (i.mnemonic.takesLimb && !dinFitsLimb (encodeDin i)) = !i.wf := by
  cases i <;> rfl

theorem decode_encode {i : Instr} (h : i.wf = true) : decode (encodeWord i) (encodeDin i) = .ok i := by
  obtain ⟨row, hrow, hmn⟩ := findRow_encodeWord i
  simp [decode_of_findRow hrow, hmn, takesLimb_and_wide_eq_not_wf, h]

/-- `decode_encode` for a word and an operand given as numbers. -/
theorem decode_of_encode {i : Instr} {cmd : CmdWord} {din : Din} (h : i.wf = true) (he : encode i = (cmd, din)) :
    decode cmd din = .ok i := by
  cases he
  exact decode_encode h

/-- Settles O5: the encoded word finds the command's own row, and its fields and operand are the command's. -/
theorem decodeOfEncodeIsTheCommand : Obligations.DecodeOfEncodeIsTheCommand := fun _ => decode_encode

/-- Settles O6: the row the word matches fixes the fields it does not use, so packing the others gives the word
back. -/
theorem encodeOfDecodeIsTheWord : Obligations.EncodeOfDecodeIsTheWord := by
  intro cmd din i h
  obtain ⟨row, hrow, hm, rfl, hfit⟩ := decode_ok_row h
  refine ⟨encodeWord_buildInstr hrow hm din, ?_, fun hmn => ?_, ?_⟩
  · rw [wf_buildInstr]
    cases ht : row.mn.takesLimb with
    | true => exact hfit ht
    | false => rfl
  · exact encodeDin_buildInstr (by simpa using hmn) cmd din
  · rw [Instr.opcode, mnemonic_buildInstr, ← opcodeTable_opc row hrow, opcode_of_match hrow hm]

/-- Settles O8: both rows have the word's opcode. -/
theorem noWordMatchesTwoRows : Obligations.NoWordMatchesTwoRows := fun _ _ _ => row_eq_of_match

/-- Settles O9: the words and the text are evaluated; each command is well formed, so its word decodes to it. -/
theorem workedEncodings : Obligations.WorkedEncodings := by
  have hadd : encode (.add 2 0 1) = (0x15020000#32, 0#64) := by decide
  have hinc : encode (.inc 3 15#64) = (0x1D800000#32, 15#64) := by decide
  have hcreate : encode (.create 0 (-1)) = (0x04000000#32, 0xFFFFFFFFFFFFFFFF#64) := by decide
  have hrdlimb : encode (.rdlimb 5 7) = (0x345E0000#32, 0#64) := by decide
  exact ⟨⟨hadd, decode_of_encode rfl hadd⟩, ⟨hinc, decode_of_encode rfl hinc⟩,
    ⟨hcreate, decode_of_encode rfl hcreate⟩, ⟨hrdlimb, decode_of_encode rfl hrdlimb⟩, by decide⟩

/-- Settles O10: each word is the encoding of its command, which is well formed. -/
theorem wordsOfEveryFamilyDecode : Obligations.WordsOfEveryFamilyDecode := by
  refine ⟨?_, ?_, ?_, ?_, ?_, ?_, ?_, ?_, ?_⟩ <;> exact decode_of_encode rfl (by decide)

end Sys2Proof
end

section
/-!
What the decoder refuses, and what a presented command does with its operand (30_encoding.md R81, R86, R90;
60_exceptions.md R244).
-/

namespace Sys2Proof.Machine

/-! ### The illegal commands -/

/-- Legal is: the word matches a row, and the operand is one the row takes. -/
theorem decode_error_iff_no_row (cmd : CmdWord) (din : Din) : (∃ e, decode cmd din = .error e) ↔
    ¬ ∃ row ∈ opcodeTable, cmd &&& row.mask = row.bits ∧ (row.mn.takesLimb = true → dinFitsLimb din = true) := by
  constructor
  · rintro ⟨e, he⟩ ⟨row, hrow, hm, hfit⟩
    cases he.symm.trans (decode_of_match hrow hm hfit)
  · intro hno
    cases hd : decode cmd din with
    | error e => exact ⟨e, rfl⟩
    | ok i =>
      obtain ⟨row, hrow, hm, -, hfit⟩ := decode_ok_row hd
      exact absurd ⟨row, hrow, hm, hfit⟩ hno

/-- Under an assigned opcode the illegal commands are those that miss the opcode's row or its operand check. -/
theorem illegal_iff_of_row {cmd : CmdWord} {row : OpRow} (h : row ∈ opcodeTable)
    (hopc : row.opc = cmd.extractLsb' 26 6) (din : Din) :
    Illegal cmd din ↔
      ¬ (cmd &&& row.mask = row.bits ∧ (row.mn.takesLimb = true → dinFitsLimb din = true)) := by
  have hassigned : ¬ (cmd.extractLsb' 26 6 = 0x00#6 ∨ 0x0E#6 ≤ cmd.extractLsb' 26 6) :=
    (opc_assigned_iff _).mp ⟨row, h, hopc⟩
  rw [row_match_iff cmd h, takesLimb_iff row h, hopc, dinFitsLimb, beq_iff_eq]
  unfold Illegal
  -- `tauto` would split these disjunctions of opcodes; the equivalence holds whatever they say.
  generalize unusedRd _ = rdUnused, unusedRs1 _ = rs1Unused, unusedRs2 _ = rs2Unused
  tauto

theorem illegal_of_unassigned {cmd : CmdWord} (h : ¬ ∃ row ∈ opcodeTable, row.opc = cmd.extractLsb' 26 6)
    (din : Din) : Illegal cmd din :=
  .inl (by_contra fun hn => h ((opc_assigned_iff _).mpr hn))

theorem decode_error_iff_illegal (cmd : CmdWord) (din : Din) :
    (∃ e, decode cmd din = .error e) ↔ Illegal cmd din := by
  rw [decode_error_iff_no_row]
  by_cases hex : ∃ row ∈ opcodeTable, row.opc = cmd.extractLsb' 26 6
  · obtain ⟨row, hrow, hopc⟩ := hex
    rw [illegal_iff_of_row hrow hopc]
    refine not_congr ⟨fun ⟨row', hrow', hm, hfit⟩ => ?_, fun ⟨hm, hfit⟩ => ⟨row, hrow, hm, hfit⟩⟩
    cases row_eq_of_opc row hrow row' hrow' (hopc.trans (opcode_of_match hrow' hm))
    exact ⟨hm, hfit⟩
  · exact iff_of_true (fun ⟨row, hrow, hm, _⟩ => hex ⟨row, hrow, (opcode_of_match hrow hm).symm⟩)
      (illegal_of_unassigned hex din)

/-- Fault entry is the frame of a fault taken (60_exceptions.md R246). -/
theorem takeFault_faultTaken (c : Cause) (opc : BitVec 6) (s : State) : FaultTaken c opc s (takeFault c opc s) :=
  ⟨fun _ => rfl, rfl, rfl, rfl, rfl, rfl⟩

theorem hostStep_command_run (cmd : CmdWord) (din : Din) {s : State} (h : s.halted = false) :
    hostStep (.command cmd din) s = acceptCommand cmd din s := by
  simp [hostStep, h]

theorem acceptCommand_of_ok {cmd : CmdWord} {din : Din} {i : Instr} (h : decode cmd din = .ok i) (s : State) :
    acceptCommand cmd din s = exec i s := by
  rw [acceptCommand, h]

theorem acceptCommand_of_error {cmd : CmdWord} {din : Din} {e : DecodeReject} (h : decode cmd din = .error e)
    (s : State) : acceptCommand cmd din s = .next (takeFault .illegalCommand (opcOf cmd) s) := by
  rw [acceptCommand, h]

/-- Settles O7: under each opcode the decoder's check is R90's, and a refused command goes to fault entry. -/
theorem illegalCommandsRaiseIllegalCommand : Obligations.IllegalCommandsRaiseIllegalCommand := by
  refine ⟨decode_error_iff_illegal, fun cmd din s hr hill => ?_⟩
  obtain ⟨e, he⟩ := (decode_error_iff_illegal cmd din).mpr hill
  exact ⟨takeFault .illegalCommand (opcOf cmd) s, (hostStep_command_run cmd din hr).trans (acceptCommand_of_error he s),
    takeFault_faultTaken .illegalCommand (opcOf cmd) s, rfl⟩

/-- Settles O37: the operand does not fit a limb, so each of the two takes the fault of its own opcode. -/
theorem wideStepOperandIsIllegal : Obligations.WideStepOperandIsIllegal := by
  intro rd din s hwide
  have hfit : dinFitsLimb din = false := beq_false_of_ne hwide
  exact ⟨⟨_, execInc_illegal hfit s, takeFault_faultTaken _ _ s⟩,
    ⟨_, execDec_illegal hfit s, takeFault_faultTaken _ _ s⟩⟩

/-! ### The operand -/

/-- Only CREATE, INC and DEC read the operand (30_encoding.md R86). -/
theorem ignores_din_of_opcode {mn : Mnemonic} (hcreate : mn.opcode ≠ 0x01#6) (hinc : mn.opcode ≠ 0x07#6)
    (hdec : mn.opcode ≠ 0x08#6) :
    mn.takesLimb = false ∧ ∀ cmd din din', buildInstr mn cmd din = buildInstr mn cmd din' := by
  cases mn with
  | create => exact absurd rfl hcreate
  | inc => exact absurd rfl hinc
  | dec => exact absurd rfl hdec
  | toi32 | toi64 | cmp | add | sub | neg | mov | rdsgn | rdlen | rdlimb => exact ⟨rfl, fun _ _ _ => rfl⟩

theorem decode_ignores_din {cmd : CmdWord} (hcreate : cmd.extractLsb' 26 6 ≠ 0x01#6)
    (hinc : cmd.extractLsb' 26 6 ≠ 0x07#6) (hdec : cmd.extractLsb' 26 6 ≠ 0x08#6) (din din' : Din) :
    decode cmd din = decode cmd din' := by
  cases hf : findRow cmd with
  | none =>
    obtain ⟨e, he⟩ := decode_of_findRow_none hf
    rw [he, he]
  | some row =>
    obtain ⟨hrow, hm⟩ := findRow_some hf
    have hopc : cmd.extractLsb' 26 6 = row.mn.opcode :=
      (opcode_of_match hrow hm).trans (opcodeTable_opc row hrow)
    rw [hopc] at hcreate hinc hdec
    obtain ⟨hlimb, hbuild⟩ := ignores_din_of_opcode hcreate hinc hdec
    rw [decode_of_findRow hf, decode_of_findRow hf, hlimb, hbuild cmd din din']
    rfl

/-- The block sees the operand of a command through the decoder alone. -/
theorem hostStep_congr_decode {cmd : CmdWord} {din din' : Din} (h : decode cmd din = decode cmd din') (s : State) :
    hostStep (.command cmd din) s = hostStep (.command cmd din') s := by
  simp only [hostStep, acceptCommand, h]

/-- Settles O11: the row of such an opcode neither checks nor takes the operand. -/
theorem otherCommandsIgnoreDin : Obligations.OtherCommandsIgnoreDin := by
  intro cmd din din' s hcreate hinc hdec
  have h := decode_ignores_din hcreate hinc hdec din din'
  exact ⟨h, hostStep_congr_decode h s⟩

/-! ### A presented command -/

/-- Settles O14: in RUN the event is accepted, and what it decodes to is executed. -/
theorem stepRunsTheDecodedCommand : Obligations.StepRunsTheDecodedCommand :=
  fun _ _ _ _ _ hr hhost hd => (step_command hhost hr).trans (acceptCommand_of_ok hd _)

/-- Settles O15: each command has its effect, and acceptance in RUN is total. -/
theorem everyCommandEnds : Obligations.EveryCommandEnds := by
  refine ⟨fun i s => ?_, fun cmd din s hr => ?_⟩
  · obtain ⟨E, hE, -⟩ := exec_hasEffect i
    exact ⟨_, hE s⟩
  · rw [hostStep_command_run cmd din hr]
    exact acceptCommand_total cmd din s

end Sys2Proof.Machine
end

section
/-!
The assembler's forms and the pseudo-instruction CLR (30_encoding.md R94, R95).
-/

namespace Sys2Proof.Machine

theorem immIn_of_mem {lo hi imm : Int} (h : lo ≤ imm ∧ imm ≤ hi) (i : Instr) : immIn lo hi imm i = .ok i := if_pos h

theorem immIn_of_not_mem {lo hi imm : Int} (h : ¬ (lo ≤ imm ∧ imm ≤ hi)) (i : Instr) :
    immIn lo hi imm i = .error .immediateOutOfRange := if_neg h

theorem immIn_eq_ok {lo hi imm : Int} {i j : Instr} (h : immIn lo hi imm i = .ok j) :
    (lo ≤ imm ∧ imm ≤ hi) ∧ i = j := by
  unfold immIn at h
  split at h
  · exact ⟨‹_›, Except.ok.inj h⟩
  · cases h

/-- The operand of an immediate of INC or DEC is that number. -/
theorem toNat_ofInt_of_limb_range {n : Int} (h : 0 ≤ n ∧ n ≤ 2 ^ 32 - 1) :
    ((BitVec.ofInt 64 n).toNat : Int) = n := by
  rw [BitVec.toNat_ofInt]
  omega

theorem dinFitsLimb_of_toNat_lt {din : Din} (h : din.toNat < 2 ^ 32) : dinFitsLimb din = true := by
  rw [dinFitsLimb, beq_iff_eq]
  apply BitVec.eq_of_toNat_eq
  simp only [BitVec.extractLsb'_toNat, Nat.shiftRight_eq_div_pow, BitVec.toNat_ofNat]
  omega

/-- The range of the immediate is the operand check of INC and DEC (30_encoding.md R86, R94). -/
theorem dinFitsLimb_ofInt {n : Int} (h : 0 ≤ n ∧ n ≤ 2 ^ 32 - 1) : dinFitsLimb (BitVec.ofInt 64 n) = true := by
  have hn := toNat_ofInt_of_limb_range h
  exact dinFitsLimb_of_toNat_lt (by omega)

theorem wf_of_assemble {l : AsmLine} {i : Instr} (h : assemble l = .ok i) : i.wf = true := by
  cases l with
  | create vd imm =>
    obtain ⟨-, rfl⟩ := immIn_eq_ok h
    rfl
  | inc vd imm =>
    obtain ⟨himm, rfl⟩ := immIn_eq_ok h
    exact dinFitsLimb_ofInt himm
  | dec vd imm =>
    obtain ⟨himm, rfl⟩ := immIn_eq_ok h
    exact dinFitsLimb_ofInt himm
  | rdlimb vs k =>
    obtain ⟨-, rfl⟩ := immIn_eq_ok h
    rfl
  | toi32 | toi64 | cmp | add | sub | neg | mov | rdsgn | rdlen | clr =>
    cases h
    rfl

/-- Settles O13: the nine forms without an immediate are read off; an immediate in range is its operand's number, and
an operand in range is well formed. -/
theorem assembledLinesDecode : Obligations.AssembledLinesDecode := by
  refine ⟨fun l i h => ⟨wf_of_assemble h, decode_encode (wf_of_assemble h)⟩, fun _ => ⟨rfl, rfl, rfl, rfl⟩,
    fun _ _ => rfl, fun _ _ => ⟨rfl, rfl⟩, fun _ _ _ => ⟨rfl, rfl⟩, fun d n h => ?_, fun d n h => ?_,
    fun d n h => ?_, fun d n h => ?_, fun r n h => ?_, fun r n h => ?_⟩
  · exact ⟨BitVec.ofInt 64 n, immIn_of_mem h _, BitVec.toInt_ofInt_eq_self (by omega) (by omega) (by omega)⟩
  · exact immIn_of_not_mem h _
  · exact ⟨BitVec.ofInt 64 n, immIn_of_mem h _, immIn_of_mem h _, toNat_ofInt_of_limb_range h⟩
  · exact ⟨immIn_of_not_mem h _, immIn_of_not_mem h _⟩
  · refine ⟨Fin.ofNat 8 n.toNat, immIn_of_mem h _, ?_⟩
    rw [Fin.val_ofNat]
    omega
  · exact immIn_of_not_mem h _

theorem encodeWord_clr (d : Reg) : encodeWord (Instr.clr d) = 0x04000000#32 ||| BitVec.ofNat 32 d.val <<< 23 := by
  revert d
  decide

/-- Settles O12: CLR is CREATE with operand 0, whose record is ZERO. -/
theorem clrWritesZero : Obligations.ClrWritesZero := by
  intro d s
  have hexec : exec (Instr.clr d) s = .next (s.writeV d Value.zero) := by
    rw [Instr.clr, exec_create, screate, if_pos (show (0#64 : Din) = 0 from rfl), finishV_ok]
  exact ⟨rfl, encodeWord_clr d, rfl, rfl, s.writeV d Value.zero, hexec, readV_writeV_same s d Value.zero,
    fun q hq => readV_writeV_ne s d q Value.zero hq, rfl, rfl, rfl⟩

end Sys2Proof.Machine
end

section
/-!
The magnitude engine (40_magnitude_engine.md R112 to R124): what each result is, when the adder and the incrementer
overflow, and the order the comparators give.
-/

namespace Sys2Proof.Machine

/-! ### Results -/

theorem magAdd_ok {a b r : Mag} (ha : a.Inv) (hb : b.Inv) (h : magAdd a b = .ok r) :
    r.Inv ∧ r.val = a.val + b.val ∧
      (r.len.val = max a.len.val b.len.val ∨ r.len.val = max a.len.val b.len.val + 1) := by
  rcases magAdd_spec ha hb with ⟨r', hok, hr'⟩ | ⟨herr, -⟩
  · cases hok.symm.trans h
    exact hr'
  · cases herr.symm.trans h

theorem magSub_ok {a b r : Mag} (ha : a.Inv) (hb : b.Inv) (h : magSub a b = .ok r) :
    r.Inv ∧ (r.val : Int) = (a.val : Int) - b.val := by
  rcases magSub_spec ha hb with ⟨hle, r', hok, hinv, hval⟩ | ⟨-, herr⟩
  · cases hok.symm.trans h
    exact ⟨hinv, by rw [hval, Int.ofNat_sub hle]⟩
  · cases herr.symm.trans h

theorem magInc_ok {a r : Mag} {v : Limb} (ha : a.Inv) (h : magInc a v = .ok r) :
    r.Inv ∧ r.val = a.val + v.toNat := by
  rcases magInc_spec ha v with ⟨r', hok, hr'⟩ | ⟨herr, -⟩
  · cases hok.symm.trans h
    exact hr'
  · cases herr.symm.trans h

theorem magDec_ok {a r : Mag} {v : Limb} (ha : a.Inv) (h : magDec a v = .ok r) :
    r.Inv ∧ (r.val : Int) = (a.val : Int) - v.toNat := by
  rcases magDec_spec ha v with ⟨hle, r', hok, hinv, hval⟩ | ⟨-, herr⟩
  · cases hok.symm.trans h
    exact ⟨hinv, by rw [hval, Int.ofNat_sub hle]⟩
  · cases herr.symm.trans h

theorem normalizeBelow_inv {m : Mag} {n : Nat} (hn : n ≤ 8) (hz : ∀ i : Fin 8, n ≤ i.val → m.limb[i] = 0) :
    (normalizeBelow m n).Inv :=
  (normalizeBelow_spec hn fun i hi h8 => (limbAt_of_lt m h8).trans (hz ⟨i, h8⟩ hi)).1

/-! ### Overflow -/

/-- A function that gives the value `n` or overflows at capacity does the second exactly where no record has the
value `n`. -/
theorem error_iff_of_value_or_overflow {result : Except Cause Mag} {n : Nat}
    (h : (∃ r, result = .ok r ∧ r.val = n) ∨ (result = .error .capacityOverflow ∧ 2 ^ 256 ≤ n)) (c : Cause) :
    result = .error c ↔ c = .capacityOverflow ∧ 2 ^ 256 ≤ n := by
  rcases h with ⟨r, rfl, rfl⟩ | ⟨rfl, hn⟩
  · exact iff_of_false (fun h => by cases h) fun ⟨_, hle⟩ => absurd r.val_lt (Nat.not_lt.mpr hle)
  · exact ⟨fun h => ⟨(Except.error.inj h).symm, hn⟩, fun ⟨hc, _⟩ => by rw [hc]⟩

theorem magAdd_error_iff {a b : Mag} (ha : a.Inv) (hb : b.Inv) (c : Cause) :
    magAdd a b = .error c ↔ c = .capacityOverflow ∧ 2 ^ 256 ≤ a.val + b.val := by
  refine error_iff_of_value_or_overflow ?_ c
  rcases magAdd_spec ha hb with ⟨r, hok, -, hval, -⟩ | herr
  · exact .inl ⟨r, hok, hval⟩
  · exact .inr herr

theorem magInc_error_iff {a : Mag} (ha : a.Inv) (v : Limb) (c : Cause) :
    magInc a v = .error c ↔ c = .capacityOverflow ∧ 2 ^ 256 ≤ a.val + v.toNat := by
  refine error_iff_of_value_or_overflow ?_ c
  rcases magInc_spec ha v with ⟨r, hok, -, hval⟩ | herr
  · exact .inl ⟨r, hok, hval⟩
  · exact .inr herr

/-- Both orders fault on the same sums, and where neither does the results are normalized records of one value. -/
theorem magAdd_comm {a b : Mag} (ha : a.Inv) (hb : b.Inv) : magAdd a b = magAdd b a := by
  cases hab : magAdd a b with
  | error c =>
    rw [magAdd_error_iff ha hb, Nat.add_comm, ← magAdd_error_iff hb ha] at hab
    exact hab.symm
  | ok r =>
    cases hba : magAdd b a with
    | error c =>
      rw [magAdd_error_iff hb ha, Nat.add_comm, ← magAdd_error_iff ha hb] at hba
      cases hab.symm.trans hba
    | ok r' =>
      obtain ⟨hr, hval, -⟩ := magAdd_ok ha hb hab
      obtain ⟨hr', hval', -⟩ := magAdd_ok hb ha hba
      rw [hr.eq_of_val_eq hr' (by rw [hval, hval', Nat.add_comm])]

/-! ### The obligations of the engine -/

/-- Settles O47: value and length are those of the adder's result, and both sums are one number. -/
theorem adderAddsAndCommutes : Obligations.AdderAddsAndCommutes :=
  fun _ _ ha hb => ⟨fun _ h => (magAdd_ok ha hb h).2, magAdd_comm ha hb⟩

/-- Settles O48: each function's result is normalized, and a command keeps the invariant of every register, its
destination among them. -/
theorem engineResultsAreNormalized : Obligations.EngineResultsAreNormalized := by
  refine ⟨fun a b r ha hb h => (magAdd_ok ha hb h).1, fun a b r ha hb h => (magSub_ok ha hb h).1,
    fun a r v ha h => (magInc_ok ha h).1, fun a r v ha h => (magDec_ok ha h).1,
    fun m n hn hz => normalizeBelow_inv hn hz, fun i s t rd hs _ h => ?_⟩
  obtain ⟨hkeeps, -⟩ := noRegisterEverBreaksItsInvariant
  exact (hkeeps i s t hs h rd).1

/-- Settles O49: the normalizer changes the length alone, which has no part in the value. -/
theorem engineResultsHaveTheirValues : Obligations.EngineResultsHaveTheirValues :=
  ⟨fun _ _ _ ha hb h => (magSub_ok ha hb h).2, fun _ _ _ ha h => (magInc_ok ha h).2,
    fun _ _ _ ha h => (magDec_ok ha h).2, fun m n => val_setLen m (topLimb m n),
    fun _ _ ha hb h => ha.eq_of_val_eq hb h⟩

/-- Settles O50: a sum below `2^256` is the value of the result, and no record has a greater value. -/
theorem engineOverflowsExactlyAtCapacity : Obligations.EngineOverflowsExactlyAtCapacity :=
  ⟨fun _ _ ha hb c => magAdd_error_iff ha hb c, fun _ v ha c => magInc_error_iff ha v c⟩

/-- Settles O51: on records of the stated lengths both comparators are the comparison of the values. -/
theorem comparatorsOrderByValue : Obligations.ComparatorsOrderByValue := by
  refine ⟨fun a b ha hb => ?_, fun a v ha hlen => ?_, fun a v hlen => if_pos hlen⟩
  · rw [magCompare_eq ha hb]
    exact ⟨Nat.compare_eq_lt, Nat.compare_eq_eq, Nat.compare_eq_gt⟩
  · rw [magCompareSmall_eq ha hlen]
    exact ⟨Nat.compare_eq_lt, Nat.compare_eq_eq, Nat.compare_eq_gt⟩

end Sys2Proof.Machine
end

section
/-!
Construction and narrowing (41_conversion.md R150 to R158): CREATE, TOI32 and TOI64 give the integer they are given,
and narrowing undoes construction.
-/

namespace Sys2Proof.Machine

/-! ### Frames -/

theorem onlyV_writeV (s : State) (rd : Reg) (x : Value) : OnlyV rd s (s.writeV rd x) :=
  ⟨fun q hq => readV_writeV_ne s rd q x hq, rfl, rfl, rfl⟩

theorem onlyRES_writeRES (s : State) (v : BitVec 64) : OnlyRES s (s.writeRES v) := ⟨fun _ => rfl, rfl, rfl⟩

/-! ### Narrowing -/

/-- Inside the target's signed range the result is the value in two's complement, which reads back unchanged (R154). -/
theorem narrow_ok_toInt {x : Value} (hx : x.Inv) {n : Nat} (hn : n = 32 ∨ n = 64)
    (hlo : -2 ^ (n - 1) ≤ x.sval) (hhi : x.sval ≤ 2 ^ (n - 1) - 1) :
    ∃ r, narrow x n = .ok r ∧ r.toInt = x.sval := by
  rcases narrow_spec hx hn with ⟨-, hlt, hok⟩ | ⟨hout, -⟩
  · exact ⟨_, hok, BitVec.toInt_ofInt_eq_self (by omega) hlo hlt⟩
  · omega

/-- `screate` and then `narrow` keep every integer of the target's signed range (R158). -/
theorem narrow_screate_ok_toInt (v : Din) {n : Nat} (hn : n = 32 ∨ n = 64)
    (hlo : -2 ^ (n - 1) ≤ v.toInt) (hhi : v.toInt ≤ 2 ^ (n - 1) - 1) :
    ∃ r, narrow (screate v) n = .ok r ∧ r.toInt = v.toInt := by
  obtain ⟨hinv, hval⟩ := screate_spec v
  rw [← hval] at hlo hhi ⊢
  exact narrow_ok_toInt hinv hn hlo hhi

/-! ### The obligations of conversion -/

/-- Settles O29: CREATE writes the record `screate` gives, and nothing else. -/
theorem createGivesTheSignedOperand : Obligations.CreateGivesTheSignedOperand := by
  intro rd din s
  obtain ⟨hinv, hval⟩ := screate_spec din
  refine ⟨s.writeV rd (screate din), by rw [exec_create, finishV_ok], ?_⟩
  rw [readV_writeV_same]
  exact ⟨hinv, hval, onlyV_writeV s rd _⟩

/-- Settles O30: the narrowed value is the integer, and sign extension keeps it. -/
theorem toi32GivesTheInteger : Obligations.Toi32GivesTheInteger := by
  intro rs1 s hinv hlo hhi
  obtain ⟨r, hok, hr⟩ := narrow_ok_toInt hinv (.inl rfl) hlo hhi
  refine ⟨s.writeRES (r.signExtend 64), ?_, ?_, onlyRES_writeRES s _⟩
  · rw [exec_toi32, hok, Except.map, finishRES_ok]
  · rw [writeRES_RES, BitVec.toInt_signExtend_of_le (by decide), hr]

/-- Settles O31: the narrowed value is the integer, and it fills `RES`. -/
theorem toi64GivesTheInteger : Obligations.Toi64GivesTheInteger := by
  intro rs1 s hinv hlo hhi
  obtain ⟨r, hok, hr⟩ := narrow_ok_toInt hinv (.inr rfl) hlo hhi
  exact ⟨s.writeRES r, by rw [exec_toi64, hok, finishRES_ok], hr, onlyRES_writeRES s r⟩

/-- Settles O53: both words read as the same signed integer; every operand is in the 64-bit range. -/
theorem narrowingOfCreateIsTheInteger : Obligations.NarrowingOfCreateIsTheInteger := by
  refine ⟨fun v => ?_, fun v hlo hhi => ?_⟩
  · obtain ⟨r, hok, hr⟩ := narrow_screate_ok_toInt v (.inr rfl) v.le_toInt (Int.le_sub_one_of_lt v.toInt_lt)
    rw [hok, BitVec.eq_of_toInt_eq hr]
  · obtain ⟨r, hok, hr⟩ := narrow_screate_ok_toInt v (.inl rfl) hlo hhi
    exact ⟨r, hok, BitVec.eq_of_toInt_eq ((BitVec.toInt_signExtend_of_le (by decide)).trans hr)⟩

end Sys2Proof.Machine
end

section
/-!
The signed comparison (42_compare.md R170 to R172): `scmp` is the order of the integers the records stand for, and CMP
gives it in `RES`.
-/

namespace Sys2Proof.Machine

/-! ### The three results, and the order as a number -/

theorem orderInt_swap (o : Ordering) : orderInt o.swap = -orderInt o := by
  cases o <;> rfl

theorem orderInt_nonpos_iff_isLE (o : Ordering) : orderInt o ≤ 0 ↔ o.isLE := by
  cases o <;> decide

section
variable {a b : Value} (ha : a.Inv) (hb : b.Inv)
include ha hb

theorem scmp_eq_lt_iff : scmp a b = .lt ↔ a.sval < b.sval := by
  rw [scmp_eq ha hb, compare_lt_iff_lt]

theorem scmp_eq_eq_iff : scmp a b = .eq ↔ a.sval = b.sval := by
  rw [scmp_eq ha hb, compare_eq_iff_eq]

theorem scmp_eq_gt_iff : scmp a b = .gt ↔ b.sval < a.sval := by
  rw [scmp_eq ha hb, compare_gt_iff_gt]

theorem scmp_swap : (scmp b a).swap = scmp a b := by
  rw [scmp_eq hb ha, scmp_eq ha hb, Std.OrientedOrd.eq_swap (a := a.sval)]

theorem orderInt_scmp_nonpos_iff : orderInt (scmp a b) ≤ 0 ↔ a.sval ≤ b.sval := by
  rw [orderInt_nonpos_iff_isLE, scmp_eq ha hb, Std.isLE_compare]

end

/-! ### The obligations of comparison -/

/-- Settles O32: CMP always writes `RES`, and which of the three words it writes is the order of the two integers. -/
theorem cmpGivesTheOrder : Obligations.CmpGivesTheOrder := by
  intro rs1 rs2 s h1 h2
  refine ⟨s.writeRES (resOfInt (orderInt (scmp (s.readV rs1) (s.readV rs2)))), by rw [exec_cmp, finishRES_ok],
    onlyRES_writeRES s _, fun hlt => ?_, fun heq => ?_, fun hgt => ?_⟩
  · rw [writeRES_RES, (scmp_eq_lt_iff h1 h2).mpr hlt]; rfl
  · rw [writeRES_RES, (scmp_eq_eq_iff h1 h2).mpr heq]; rfl
  · rw [writeRES_RES, (scmp_eq_gt_iff h1 h2).mpr hgt]; rfl

/-- Settles O54: the laws are those of the order of the integers, and a record that meets the invariants is fixed by
its integer. -/
theorem comparisonIsATotalOrder : Obligations.ComparisonIsATotalOrder := by
  refine ⟨fun a ha => (scmp_eq_eq_iff ha ha).mpr rfl, fun a b ha hb => ?_, fun a b c ha hb hc hab hbc => ?_,
    fun a b ha hb h => ha.eq_of_sval_eq hb ((scmp_eq_eq_iff ha hb).mp h)⟩
  · rw [← scmp_swap ha hb, orderInt_swap]
  · rw [orderInt_scmp_nonpos_iff ha hb] at hab
    rw [orderInt_scmp_nonpos_iff hb hc] at hbc
    exact (orderInt_scmp_nonpos_iff ha hc).mpr (hab.trans hbc)

end Sys2Proof.Machine
end

section
/-!
Signed addition, subtraction and negation (43_add_sub.md R180 to R188): ADD, SUB and NEG give the integer sum,
difference and opposite, and the laws the source states of them.
-/

namespace Sys2Proof.Machine

/-! ### When a sum or a difference fits -/

theorem Sgn.abs_toInt {s : Sgn} (h : s ≠ .zero) : |s.toInt| = 1 := by
  cases s with
  | neg | pos => rfl
  | zero => exact absurd rfl h

theorem abs_sval_add_of_sgn_eq {a b : Value} (h : a.sgn = b.sgn) (h0 : a.sgn ≠ .zero) :
    |a.sval + b.sval| = ((a.mag.val + b.mag.val : Nat) : Int) := by
  rw [Value.sval, Value.sval, ← h, ← mul_add, ← Nat.cast_add, abs_mul, Sgn.abs_toInt h0, one_mul, Nat.abs_cast]

/-- Law 4 of R188, faults included and on every pair of records: the entry of R185's decision table for the signs of
`a` and `b` is the entry of R182's for the signs of `a` and `-b`. -/
theorem ssub_eq_sadd_sneg (a b : Value) : ssub a b = sadd a (sneg b) := by
  have hb : (sneg b).sgn = b.sgn.negate := rfl
  rw [ssub, sadd, hb]
  cases b.sgn with
  | zero => rfl
  | neg | pos => cases a.sgn <;> rfl

theorem sadd_ok {a b r : Value} (ha : a.Inv) (hb : b.Inv) (h : sadd a b = .ok r) :
    r.Inv ∧ r.sval = a.sval + b.sval := by
  rcases sadd_spec ha hb with ⟨r', hok, hr'⟩ | ⟨herr, -⟩
  · cases hok.symm.trans h
    exact hr'
  · cases herr.symm.trans h

/-- A fault would have two magnitudes of one sign add up past the capacity (R182). -/
theorem sadd_of_fits {a b : Value} (ha : a.Inv) (hb : b.Inv) (h : |a.sval + b.sval| < 2 ^ 256) :
    ∃ r, sadd a b = .ok r ∧ r.Inv ∧ r.sval = a.sval + b.sval := by
  rcases sadd_spec ha hb with hok | ⟨-, hsgn, h0, hover⟩
  · exact hok
  · rw [abs_sval_add_of_sgn_eq hsgn h0] at h
    omega

theorem ssub_of_fits {a b : Value} (ha : a.Inv) (hb : b.Inv) (h : |a.sval - b.sval| < 2 ^ 256) :
    ∃ r, ssub a b = .ok r ∧ r.Inv ∧ r.sval = a.sval - b.sval := by
  obtain ⟨hinv, hval⟩ := sneg_spec hb
  rw [sub_eq_add_neg, ← hval] at h ⊢
  rw [ssub_eq_sadd_sneg]
  exact sadd_of_fits ha hinv h

/-! ### The obligations of ADD, SUB and NEG -/

/-- A command whose result is a record of the integer `n` completes and writes that record, and nothing else. -/
theorem finishV_writes_sval {result : Except Cause Value} {n : Int} (h : ∃ x, result = .ok x ∧ x.Inv ∧ x.sval = n)
    (mn : Mnemonic) (rd : Reg) (s : State) :
    ∃ t, finishV mn rd result s = .next t ∧ (t.readV rd).Inv ∧ (t.readV rd).sval = n ∧ OnlyV rd s t := by
  obtain ⟨x, rfl, hinv, hval⟩ := h
  refine ⟨s.writeV rd x, finishV_ok mn rd x s, ?_⟩
  rw [readV_writeV_same]
  exact ⟨hinv, hval, onlyV_writeV s rd x⟩

/-- Settles O33: the sum is formed from the old registers, and one that fits is no fault. -/
theorem addGivesTheSum : Obligations.AddGivesTheSum := by
  intro rd rs1 rs2 s h1 h2 hfits
  rw [exec_add]
  exact finishV_writes_sval (sadd_of_fits h1 h2 hfits) .add rd s

/-- Settles O34: the difference is formed from the old registers, and one that fits is no fault. -/
theorem subGivesTheDifference : Obligations.SubGivesTheDifference := by
  intro rd rs1 rs2 s h1 h2 hfits
  rw [exec_sub]
  exact finishV_writes_sval (ssub_of_fits h1 h2 hfits) .sub rd s

/-- Settles O38: `sneg` is a record of the opposite for every record. -/
theorem negGivesTheOpposite : Obligations.NegGivesTheOpposite := by
  intro rd rs1 s h1
  rw [exec_neg]
  exact finishV_writes_sval ⟨sneg (s.readV rs1), rfl, sneg_spec h1⟩ .neg rd s

/-! ### The laws -/

theorem sadd_comm_of_ok {a b r q : Value} (ha : a.Inv) (hb : b.Inv) (hr : sadd a b = .ok r) (hq : sadd b a = .ok q) :
    r = q := by
  obtain ⟨hr, hrv⟩ := sadd_ok ha hb hr
  obtain ⟨hq, hqv⟩ := sadd_ok hb ha hq
  exact hr.eq_of_sval_eq hq (by rw [hrv, hqv, add_comm])

theorem sadd_assoc_of_ok {a b c ab bc r q : Value} (ha : a.Inv) (hb : b.Inv) (hc : c.Inv) (hab : sadd a b = .ok ab)
    (hbc : sadd b c = .ok bc) (hr : sadd ab c = .ok r) (hq : sadd a bc = .ok q) : r = q := by
  obtain ⟨hab, habv⟩ := sadd_ok ha hb hab
  obtain ⟨hbc, hbcv⟩ := sadd_ok hb hc hbc
  obtain ⟨hr, hrv⟩ := sadd_ok hab hc hr
  obtain ⟨hq, hqv⟩ := sadd_ok ha hbc hq
  exact hr.eq_of_sval_eq hq (by rw [hrv, hqv, habv, hbcv, add_assoc])

/-- The opposite of every record is a record, so neither step faults. -/
theorem sadd_ssub_zero {x : Value} (hx : x.Inv) : ∃ y, ssub Value.zero x = .ok y ∧ sadd x y = .ok Value.zero := by
  obtain ⟨hlo, hhi⟩ := sval_range x
  obtain ⟨y, hy, hyinv, hyv⟩ := ssub_of_fits Value.zero_inv hx (abs_lt.mpr (by rw [sval_zero]; omega))
  have hsum : x.sval + y.sval = 0 := by rw [hyv, sval_zero]; omega
  obtain ⟨r, hr, hrinv, hrv⟩ := sadd_of_fits hx hyinv (by rw [hsum]; decide)
  obtain rfl : r = Value.zero := hrinv.eq_of_sval_eq Value.zero_inv (by rw [hrv, hsum, sval_zero])
  exact ⟨y, hy, hr⟩

/-- With `MAX = 2^256 - 1`, the grouping `(MAX + 1) + (-1)` faults at its first sum and `MAX + (1 + (-1))` is `MAX`. -/
theorem sadd_assoc_one_side_faults :
    sadd (valueOfInt (2 ^ 256 - 1)) (valueOfInt 1) = .error .capacityOverflow ∧
      sadd (valueOfInt 1) (valueOfInt (-1)) = .ok Value.zero ∧
      sadd (valueOfInt (2 ^ 256 - 1)) Value.zero = .ok (valueOfInt (2 ^ 256 - 1)) := by decide

/-- Settles O55: where no fault occurs both sides are records of one integer, and a record that meets the invariants
is fixed by its integer. -/
theorem additionAndSubtractionLaws : Obligations.AdditionAndSubtractionLaws := by
  refine ⟨fun _ _ _ _ => sadd_comm_of_ok, fun _ _ _ _ _ _ _ => sadd_assoc_of_ok, ?_, fun _ => sadd_ssub_zero,
    ssub_eq_sadd_sneg, fun x => ⟨if_pos rfl, if_pos rfl⟩⟩
  obtain ⟨hfault, hzero, hmax⟩ := sadd_assoc_one_side_faults
  exact ⟨valueOfInt (2 ^ 256 - 1), valueOfInt 1, valueOfInt (-1), Value.zero, _, (valueOfInt_spec (by omega)).1,
    (valueOfInt_spec (by omega)).1, (valueOfInt_spec (by omega)).1, hfault, hzero, hmax⟩

end Sys2Proof.Machine
end

section
/-!
In-place increment and decrement (44_inc_dec.md R200 to R204): INC and DEC add and subtract their operand, and steps
in the two directions undo each other.
-/

namespace Sys2Proof.Machine

/-! ### What a step gives -/

theorem Sgn.toInt_mul_self {d : Sgn} (h : d ≠ .zero) : d.toInt * d.toInt = 1 := by
  cases d with
  | neg | pos => rfl
  | zero => exact absurd rfl h

/-- Away from zero the magnitude is the distance gone in the step's direction (the first case of R200). -/
theorem toInt_mul_sval_of_away {x : Value} (hx : x.Inv) {d : Sgn} (hd : d ≠ .zero) (h : x.sgn = .zero ∨ x.sgn = d) :
    d.toInt * x.sval = (x.mag.val : Int) := by
  rcases h with hz | rfl
  · rw [sval_of_zero hz, hx.2.mp hz, mul_zero, Nat.cast_zero]
  · rw [Value.sval, ← mul_assoc, Sgn.toInt_mul_self hd, one_mul]

/-- Only a step away from zero can fault, so one bound, on the side it moves to, is enough (R200, R203). -/
theorem sstep_of_fits {x : Value} (hx : x.Inv) {v : Limb} {d : Sgn} (hd : d ≠ .zero)
    (h : d.toInt * x.sval + (v.toNat : Int) < 2 ^ 256) :
    ∃ r, sstep x v d = .ok r ∧ r.Inv ∧ r.sval = x.sval + d.toInt * (v.toNat : Int) := by
  rcases sstep_spec hx v hd with hok | ⟨-, haway, hover⟩
  · exact hok
  · rw [toInt_mul_sval_of_away hx hd haway] at h
    omega

theorem sstep_ok {x r : Value} (hx : x.Inv) {v : Limb} {d : Sgn} (hd : d ≠ .zero) (h : sstep x v d = .ok r) :
    r.Inv ∧ r.sval = x.sval + d.toInt * (v.toNat : Int) := by
  rcases sstep_spec hx v hd with ⟨r', hok, hr'⟩ | ⟨herr, -⟩
  · cases hok.symm.trans h
    exact hr'
  · cases herr.symm.trans h

/-- A step and one of the same value in the opposite direction: the two moves cancel, and the integer fixes the
record, also where the first step crosses zero. -/
theorem sstep_sstep_opposite {x y z : Value} (hx : x.Inv) {v : Limb} {d e : Sgn} (hd : d ≠ .zero) (he : e ≠ .zero)
    (hopp : e.toInt = -d.toInt) (hy : sstep x v d = .ok y) (hz : sstep y v e = .ok z) : z = x := by
  obtain ⟨hyinv, hyv⟩ := sstep_ok hx hd hy
  obtain ⟨hzinv, hzv⟩ := sstep_ok hyinv he hz
  exact hzinv.eq_of_sval_eq hx (by rw [hzv, hyv, hopp, neg_mul, add_neg_cancel_right])

/-! ### The obligations of INC and DEC -/

theorem dinFitsLimb_of_upper_eq_zero {din : Din} (h : din.extractLsb' 32 32 = 0) : dinFitsLimb din = true :=
  beq_iff_eq.mpr h

/-- Settles O35: the operand is a limb, and a sum below `2^256` is no fault of the upward step. -/
theorem incAddsItsOperand : Obligations.IncAddsItsOperand := by
  intro rd din s hupper hinv hfits
  have hstep := sstep_of_fits hinv (v := limbOperand din) (d := .pos) (by decide)
    (by rw [Sgn.toInt, one_mul]; exact hfits)
  rw [Sgn.toInt, one_mul] at hstep
  rw [exec_inc rd din s (dinFitsLimb_of_upper_eq_zero hupper)]
  exact finishV_writes_sval hstep .inc rd s

/-- Settles O36: the operand is a limb, and a difference above `-2^256` is no fault of the downward step. -/
theorem decSubtractsItsOperand : Obligations.DecSubtractsItsOperand := by
  intro rd din s hupper hinv hfits
  have hstep := sstep_of_fits hinv (v := limbOperand din) (d := .neg) (by decide)
    (by rw [Sgn.toInt, neg_one_mul, limbOperand]; omega)
  rw [Sgn.toInt, neg_one_mul, ← sub_eq_add_neg] at hstep
  rw [exec_dec rd din s (dinFitsLimb_of_upper_eq_zero hupper)]
  exact finishV_writes_sval hstep .dec rd s

/-- Settles O56: the value equation is that of a step without a fault, and up and down are opposite directions. -/
theorem incrementAndDecrementAreInverse : Obligations.IncrementAndDecrementAreInverse := by
  intro x v hx
  exact ⟨fun _ _ hd hy => (sstep_ok hx hd hy).2,
    fun _ _ => sstep_sstep_opposite hx (d := .pos) (e := .neg) (by decide) (by decide) rfl,
    fun _ _ => sstep_sstep_opposite hx (d := .neg) (e := .pos) (by decide) (by decide) rfl⟩

end Sys2Proof.Machine
end

section
/-!
Copy and read-out (45_move_debug.md R220 to R224): MOV copies a whole record, RDSGN, RDLEN and RDLIMB show one, and a
read-out changes nothing but `RES`.
-/

namespace Sys2Proof.Machine

/-! ### What each command writes -/

theorem writeV_readV (s : State) (r : Reg) : s.writeV r (s.readV r) = s := by
  refine State.ext_readV (fun q => ?_) rfl rfl rfl
  rw [readV_writeV]
  split
  case isTrue h => rw [h]
  case isFalse => rfl

theorem exec_mov_writes (rd rs1 : Reg) (s : State) : exec (.mov rd rs1) s = .next (s.writeV rd (s.readV rs1)) :=
  (exec_mov rd rs1 s).trans (finishV_ok ..)

theorem exec_rdsgn_writes (rs1 : Reg) (s : State) :
    exec (.rdsgn rs1) s = .next (s.writeRES (resOfInt (s.readV rs1).sgn.toInt)) :=
  (exec_rdsgn rs1 s).trans (finishRES_ok ..)

theorem exec_rdlen_writes (rs1 : Reg) (s : State) :
    exec (.rdlen rs1) s = .next (s.writeRES (BitVec.ofNat 64 (s.readV rs1).mag.len.val)) :=
  (exec_rdlen rs1 s).trans (finishRES_ok ..)

theorem exec_rdlimb_writes (rs1 : Reg) (k : LimbIx) (s : State) :
    exec (.rdlimb rs1 k) s = .next (s.writeRES (((s.readV rs1).mag.limbAt k.val).setWidth 64)) :=
  (exec_rdlimb rs1 k s).trans (finishRES_ok ..)

theorem exec_readout_writes_RES {i : Instr}
    (h : i.mnemonic = .rdsgn ∨ i.mnemonic = .rdlen ∨ i.mnemonic = .rdlimb) (s : State) :
    ∃ v, exec i s = .next (s.writeRES v) := by
  cases i with
  | rdsgn rs1 => exact ⟨_, exec_rdsgn_writes rs1 s⟩
  | rdlen rs1 => exact ⟨_, exec_rdlen_writes rs1 s⟩
  | rdlimb rs1 k => exact ⟨_, exec_rdlimb_writes rs1 k s⟩
  | create | toi32 | toi64 | cmp | add | sub | inc | dec | neg | mov => simp [Instr.mnemonic] at h

/-! ### What the three words show of a record -/

theorem Value.ext_fields {x y : Value} (hs : x.sgn = y.sgn) (hm : x.mag = y.mag) : x = y := by
  cases x; cases y; cases hs; cases hm; rfl

theorem resOfInt_toInt_eq_signExtend_code (s : Sgn) : resOfInt s.toInt = s.code.signExtend 64 := by
  cases s <;> decide

theorem resOfInt_toInt_inj {s s' : Sgn} (h : resOfInt s.toInt = resOfInt s'.toInt) : s = s' := by
  revert h
  cases s <;> cases s' <;> decide

theorem toNat_ofNat_len (m : Mag) : (BitVec.ofNat 64 m.len.val).toNat = m.len.val := by
  have := m.len_le
  rw [BitVec.toNat_ofNat, Nat.mod_eq_of_lt (by omega)]

theorem ofNat_len_inj {m m' : Mag} (h : BitVec.ofNat 64 m.len.val = BitVec.ofNat 64 m'.len.val) : m.len = m'.len :=
  Fin.ext (by rw [← toNat_ofNat_len m, h, toNat_ofNat_len])

theorem zext_lower (v : Limb) : (v.setWidth 64 : Acc).extractLsb' 0 32 = v :=
  (BitVec.extractLsb'_setWidth_of_le (by decide)).trans BitVec.extractLsb'_eq_self

theorem zext_upper (v : Limb) : (v.setWidth 64 : Acc).extractLsb' 32 32 = 0 := by
  ext i hi
  simp

theorem limb_zext_inj {v v' : Limb} (h : (v.setWidth 64 : Acc) = v'.setWidth 64) : v = v' := by
  rw [← zext_lower v, h, zext_lower]

/-! ### The length of a signed record -/

theorem Value.Inv.len_eq_zero_iff {x : Value} (h : x.Inv) : x.mag.len.val = 0 ↔ x.sval = 0 := by
  rw [h.1.len_eq_zero_iff, ← abs_eq_zero, h.abs_sval, Nat.cast_eq_zero]

/-- Seven limbs hold a value below `2^224` only. -/
theorem Value.Inv.len_eq_eight {x : Value} (h : x.Inv) (hbig : 2 ^ 224 ≤ |x.sval|) : x.mag.len.val = 8 := by
  rw [h.abs_sval] at hbig
  have hpow : 2 ^ 224 < 2 ^ (32 * x.mag.len.val) := lt_of_le_of_lt (by exact_mod_cast hbig) h.1.val_lt_len
  have hlen : 224 < 32 * x.mag.len.val := (Nat.pow_lt_pow_iff_right (by decide)).mp hpow
  have := x.mag.len_le
  omega

/-! ### The obligations of copy and read-out -/

/-- Settles O39: the record written is the old source, and a register written with what it holds is unchanged. -/
theorem movCopiesTheRecord : Obligations.MovCopiesTheRecord := by
  intro rd rs1 s
  refine ⟨_, exec_mov_writes rd rs1 s, readV_writeV_same .., onlyV_writeV .., ?_⟩
  rintro rfl
  exact writeV_readV s rd

/-- Settles O40: the sign's integer is the sign extension of its code, and each of the three words is read off. -/
theorem rdsgnGivesTheSign : Obligations.RdsgnGivesTheSign := by
  intro rs1 s
  refine ⟨_, exec_rdsgn_writes rs1 s, onlyRES_writeRES .., ?_⟩
  rw [writeRES_RES, resOfInt_toInt_eq_signExtend_code]
  exact ⟨rfl, fun h => by rw [h]; rfl, fun h => by rw [h]; rfl, fun h => by rw [h]; rfl⟩

/-- Settles O41: `RES` is the length as a number, and under the invariant the value fixes the length. -/
theorem rdlenGivesTheLength : Obligations.RdlenGivesTheLength := by
  intro rs1 s
  have hlen := toNat_ofNat_len (s.readV rs1).mag
  refine ⟨_, exec_rdlen_writes rs1 s, onlyRES_writeRES .., ?_⟩
  rw [writeRES_RES]
  refine ⟨hlen, hlen.trans_le (Mag.len_le _), fun hinv => ?_, fun hinv hbig => ?_⟩
  · rw [← hinv.len_eq_zero_iff, ← BitVec.toNat_inj, hlen]
    rfl
  · rw [hinv.len_eq_eight hbig]
    rfl

/-- Settles O42: the low half of a zero-extended limb is the limb, and no limb at or above the length is set. -/
theorem rdlimbGivesTheLimb : Obligations.RdlimbGivesTheLimb := by
  intro rs1 k s
  refine ⟨_, exec_rdlimb_writes rs1 k s, onlyRES_writeRES .., ?_⟩
  rw [writeRES_RES, limbAt_fin]
  refine ⟨zext_lower _, zext_upper _, fun hinv hk => ?_⟩
  rw [hinv.limb_zero hk]
  rfl

/-- Settles O45: a read-out leaves every register, and a command has one and the same effect in two states with the
same registers. -/
theorem readoutsChangeOnlyRes : Obligations.ReadoutsChangeOnlyRes := by
  intro i s t hi h
  obtain ⟨v, hv⟩ := exec_readout_writes_RES hi s
  cases hv.symm.trans h
  refine ⟨onlyRES_writeRES s v, fun j u w hu hw => ?_⟩
  obtain ⟨e, rfl, hw'⟩ := exec_of_same_registers (s' := s.writeRES v) hu rfl
  cases hw'.symm.trans hw
  cases e with
  | setV rd x => exact ⟨rfl, rfl, .inr ⟨rfl, rfl⟩⟩
  | setRES r => exact ⟨rfl, rfl, .inl rfl⟩
  | fault c => exact ⟨rfl, rfl, .inr ⟨rfl, rfl⟩⟩

/-- Settles O46: every read-out runs, its word fixes the field it shows, and the fields together are the record. -/
theorem readoutsDetermineTheRecord : Obligations.ReadoutsDetermineTheRecord := by
  intro s s' r r' hsgn hlen hlimb
  have hlimbs : ∀ i < 8, (s.readV r).mag.limbAt i = (s'.readV r').mag.limbAt i := fun i hi =>
    limb_zext_inj (hlimb ⟨i, hi⟩ _ _ (exec_rdlimb_writes r ⟨i, hi⟩ s) (exec_rdlimb_writes r' ⟨i, hi⟩ s'))
  refine Value.ext_fields (resOfInt_toInt_inj ?_) (Mag.ext_limbAt (ofNat_len_inj ?_) hlimbs)
  · exact hsgn _ _ (exec_rdsgn_writes r s) (exec_rdsgn_writes r' s')
  · exact hlen _ _ (exec_rdlen_writes r s) (exec_rdlen_writes r' s')

end Sys2Proof.Machine
end

section
/-!
Which faults a command raises, and when (60_exceptions.md R241 to R243): the façade's functions fault exactly where
their result has no record, and an effect of a command is a fault exactly under the condition the spec gives.
-/

namespace Sys2Proof.Machine

/-! ### When the engine and the façade fault -/

/-- A function that checks its precondition faults exactly where the first operand is smaller. -/
theorem error_iff_of_value_or_smaller {result : Except Cause Mag} {P : Mag → Prop} {m n : Nat}
    (h : (n ≤ m ∧ ∃ r, result = .ok r ∧ P r) ∨ (m < n ∧ result = .error .preconditionViolation)) :
    result = .error .preconditionViolation ↔ m < n := by
  rcases h with ⟨hle, r, rfl, -⟩ | ⟨hlt, rfl⟩
  · exact iff_of_false nofun (Nat.not_lt.mpr hle)
  · exact iff_of_true rfl hlt

/-- A function that gives a record of the integer `n` or overflows under `P` overflows exactly under `P`, where `P`
puts `n` outside the range of the records. -/
theorem error_iff_of_sval_or_overflow {result : Except Cause Value} {n : Int} {P : Prop}
    (h : (∃ r, result = .ok r ∧ r.Inv ∧ r.sval = n) ∨ (result = .error .capacityOverflow ∧ P))
    (hP : P → 2 ^ 256 ≤ |n|) (c : Cause) : result = .error c ↔ c = .capacityOverflow ∧ P := by
  rcases h with ⟨r, rfl, -, rfl⟩ | ⟨rfl, hp⟩
  · exact iff_of_false nofun fun ⟨_, hp⟩ => absurd (hP hp) (not_le.mpr (abs_lt.mpr (sval_range r)))
  · exact ⟨fun h => ⟨(Except.error.inj h).symm, hp⟩, fun ⟨hc, _⟩ => by rw [hc]⟩

/-- R182's only fault: two magnitudes of one sign that add up past the capacity. -/
theorem sadd_error_iff {a b : Value} (ha : a.Inv) (hb : b.Inv) (c : Cause) :
    sadd a b = .error c ↔
      c = .capacityOverflow ∧ a.sgn = b.sgn ∧ a.sgn ≠ .zero ∧ 2 ^ 256 ≤ |a.sval| + |b.sval| := by
  have hsum : |a.sval| + |b.sval| = ((a.mag.val + b.mag.val : Nat) : Int) := by
    rw [ha.abs_sval, hb.abs_sval, Nat.cast_add]
  refine error_iff_of_sval_or_overflow ((sadd_spec ha hb).imp_right ?_) ?_ c
  · rintro ⟨herr, hsgn, h0, hover⟩
    exact ⟨herr, hsgn, h0, by rw [hsum]; exact_mod_cast hover⟩
  · rintro ⟨hsgn, h0, hover⟩
    rwa [abs_sval_add_of_sgn_eq hsgn h0, ← hsum]

/-- Opposite to a sign that is not zero is: another sign, and not zero. -/
theorem Sgn.eq_negate_iff (s d : Sgn) : (s = d.negate ∧ s ≠ .zero) ↔ (s ≠ d ∧ s ≠ .zero ∧ d ≠ .zero) := by
  cases s <;> cases d <;> decide

/-- R185's only fault, by law 4 of R188 that of the addition of the opposite. -/
theorem ssub_error_iff {a b : Value} (ha : a.Inv) (hb : b.Inv) (c : Cause) :
    ssub a b = .error c ↔
      c = .capacityOverflow ∧ a.sgn ≠ b.sgn ∧ a.sgn ≠ .zero ∧ b.sgn ≠ .zero ∧ 2 ^ 256 ≤ |a.sval| + |b.sval| := by
  obtain ⟨hinv, hval⟩ := sneg_spec hb
  have hsgn := Sgn.eq_negate_iff a.sgn b.sgn
  rw [ssub_eq_sadd_sneg, sadd_error_iff ha hinv, hval, abs_neg, show (sneg b).sgn = b.sgn.negate from rfl]
  tauto

/-- A step in direction `d` leads away from zero exactly where the record is not on the other side. -/
theorem away_iff_toInt_mul_sval_nonneg {x : Value} (hx : x.Inv) {d : Sgn} (hd : d ≠ .zero) :
    (x.sgn = .zero ∨ x.sgn = d) ↔ 0 ≤ d.toInt * x.sval := by
  constructor
  · intro h
    rw [toInt_mul_sval_of_away hx hd h]
    exact Int.natCast_nonneg _
  · contrapose!
    rintro ⟨h0, hne⟩
    have hpos := hx.val_pos h0
    rw [Value.sval, sgn_other h0 hne hd, ← mul_assoc, mul_neg, Sgn.toInt_mul_self hd]
    omega

/-- R203's only fault: a step away from zero past the capacity. -/
theorem sstep_error_iff {x : Value} (hx : x.Inv) (v : Limb) {d : Sgn} (hd : d ≠ .zero) (c : Cause) :
    sstep x v d = .error c ↔
      c = .capacityOverflow ∧ 0 ≤ d.toInt * x.sval ∧ 2 ^ 256 ≤ |x.sval| + (v.toNat : Int) := by
  refine error_iff_of_sval_or_overflow ((sstep_spec hx v hd).imp_right ?_) ?_ c
  · rintro ⟨herr, haway, hover⟩
    refine ⟨herr, (away_iff_toInt_mul_sval_nonneg hx hd).mp haway, ?_⟩
    rw [hx.abs_sval]
    exact_mod_cast hover
  · rintro ⟨haway, hover⟩
    have hdist : |x.sval| = d.toInt * x.sval := by
      rw [hx.abs_sval, toInt_mul_sval_of_away hx hd ((away_iff_toInt_mul_sval_nonneg hx hd).mpr haway)]
    calc 2 ^ 256 ≤ d.toInt * x.sval + (v.toNat : Int) := by rwa [← hdist]
      _ = d.toInt * (x.sval + d.toInt * (v.toNat : Int)) := by
        rw [mul_add, ← mul_assoc, Sgn.toInt_mul_self hd, one_mul]
      _ ≤ |d.toInt * (x.sval + d.toInt * (v.toNat : Int))| := le_abs_self _
      _ = |x.sval + d.toInt * (v.toNat : Int)| := by rw [abs_mul, Sgn.abs_toInt hd, one_mul]

/-- The upward step's condition is that of INC (60_exceptions.md R241). -/
theorem inc_error_iff {x : Value} (hx : x.Inv) {din : Din} (hdin : dinFitsLimb din = true) (c : Cause) :
    sstep x (limbOperand din) .pos = .error c ↔
      c = .capacityOverflow ∧ 0 ≤ x.sval ∧ 2 ^ 256 ≤ x.sval + (din.toNat : Int) := by
  rw [sstep_error_iff hx _ (by decide), limbOperand_toNat hdin, Sgn.toInt, one_mul]
  exact and_congr_right fun _ => and_congr_right fun hpos => by rw [abs_of_nonneg hpos]

/-- The downward step's condition is that of DEC (60_exceptions.md R241). -/
theorem dec_error_iff {x : Value} (hx : x.Inv) {din : Din} (hdin : dinFitsLimb din = true) (c : Cause) :
    sstep x (limbOperand din) .neg = .error c ↔
      c = .capacityOverflow ∧ x.sval ≤ 0 ∧ 2 ^ 256 ≤ |x.sval| + (din.toNat : Int) := by
  rw [sstep_error_iff hx _ (by decide), limbOperand_toNat hdin, Sgn.toInt, neg_one_mul, Int.neg_nonneg]

/-- R154's only fault: a value outside the target's signed range. -/
theorem narrow_error_iff {x : Value} (hx : x.Inv) {n : Nat} (hn : n = 32 ∨ n = 64) (c : Cause) :
    narrow x n = .error c ↔
      c = .narrowingOverflow ∧ (x.sval < -2 ^ (n - 1) ∨ 2 ^ (n - 1) - 1 < x.sval) := by
  rcases narrow_spec hx hn with ⟨hlo, hhi, hok⟩ | ⟨hout, herr⟩
  · rw [hok]
    exact iff_of_false nofun (by omega)
  · rw [herr]
    exact ⟨fun h => ⟨(Except.error.inj h).symm, by omega⟩, fun ⟨hc, _⟩ => by rw [hc]⟩

/-- Putting a narrowed result into `RES` adds no fault. -/
theorem map_eq_error_iff {α β : Type} (f : α → β) (result : Except Cause α) (c : Cause) :
    result.map f = .error c ↔ result = .error c := by
  cases result <;> simp [Except.map]

/-! ### When a command faults -/

/-- The conditions under which a well-formed command raises each fault (60_exceptions.md R241 to R244); its operand,
if it has one, is legal, so it is never illegal. -/
def RaisesFault (i : Instr) (s : State) : Cause → Prop
  | .capacityOverflow => overflowsCapacity i s
  | .narrowingOverflow => overflowsNarrowing i s
  | .preconditionViolation => False
  | .illegalCommand => False

theorem iff_raisesFault_of_capacity {i : Instr} {s : State} {c : Cause} {p : Prop}
    (h : p ↔ c = .capacityOverflow ∧ overflowsCapacity i s) (hnar : ¬ overflowsNarrowing i s) :
    p ↔ RaisesFault i s c := by
  rw [h]
  cases c <;> simp [RaisesFault, hnar]

theorem iff_raisesFault_of_narrowing {i : Instr} {s : State} {c : Cause} {p : Prop}
    (h : p ↔ c = .narrowingOverflow ∧ overflowsNarrowing i s) (hcap : ¬ overflowsCapacity i s) :
    p ↔ RaisesFault i s c := by
  rw [h]
  cases c <;> simp [RaisesFault, hcap]

/-- A command that always has a result raises no fault. -/
theorem ok_eq_error_iff_raisesFault {α : Type} {i : Instr} {s : State} (x : α) (hcap : ¬ overflowsCapacity i s)
    (hnar : ¬ overflowsNarrowing i s) (c : Cause) : Except.ok x = .error c ↔ RaisesFault i s c := by
  cases c <;> simp [RaisesFault, hcap, hnar]

@[simp] theorem ofV_eq_fault_iff (rd : Reg) (result : Except Cause Value) (c : Cause) :
    Effect.ofV rd result = .fault c ↔ result = .error c := by
  cases result <;> simp [Effect.ofV]

@[simp] theorem ofRES_eq_fault_iff (result : Except Cause (BitVec 64)) (c : Cause) :
    Effect.ofRES result = .fault c ↔ result = .error c := by
  cases result <;> simp [Effect.ofRES]

/-- The command's effect is the fault `c` exactly under the condition of `c`. -/
def FaultsExactly (i : Instr) (s : State) : Prop :=
  ∃ e : Effect, exec i s = .next (e.apply i.opcode s) ∧ ∀ c, e = .fault c ↔ RaisesFault i s c

theorem faultsExactly_of_finishV {i : Instr} {s : State} {rd : Reg} {result : Except Cause Value}
    (hexec : exec i s = finishV i.mnemonic rd result s) (h : ∀ c, result = .error c ↔ RaisesFault i s c) :
    FaultsExactly i s :=
  ⟨.ofV rd result, hexec.trans (finishV_eq_effect i.mnemonic rd result s),
    fun c => (ofV_eq_fault_iff rd result c).trans (h c)⟩

theorem faultsExactly_of_finishRES {i : Instr} {s : State} {result : Except Cause (BitVec 64)}
    (hexec : exec i s = finishRES i.mnemonic result s) (h : ∀ c, result = .error c ↔ RaisesFault i s c) :
    FaultsExactly i s :=
  ⟨.ofRES result, hexec.trans (finishRES_eq_effect i.mnemonic result s),
    fun c => (ofRES_eq_fault_iff result c).trans (h c)⟩

/-- Each command by its result: it is always there, or the function that computes it faults under the command's
condition. -/
theorem exec_faultsExactly {i : Instr} {s : State} (hwf : i.wf = true) (hs : s.RegsInv) : FaultsExactly i s := by
  cases i with
  | create rd din => exact faultsExactly_of_finishV (exec_create rd din s) (ok_eq_error_iff_raisesFault _ id id)
  | toi32 rs1 =>
    exact faultsExactly_of_finishRES (exec_toi32 rs1 s) fun c => (map_eq_error_iff _ _ c).trans
      (iff_raisesFault_of_narrowing (narrow_error_iff (hs rs1) (.inl rfl) c) id)
  | toi64 rs1 =>
    exact faultsExactly_of_finishRES (exec_toi64 rs1 s) fun c =>
      iff_raisesFault_of_narrowing (narrow_error_iff (hs rs1) (.inr rfl) c) id
  | cmp rs1 rs2 => exact faultsExactly_of_finishRES (exec_cmp rs1 rs2 s) (ok_eq_error_iff_raisesFault _ id id)
  | add rd rs1 rs2 =>
    exact faultsExactly_of_finishV (exec_add rd rs1 rs2 s) fun c =>
      iff_raisesFault_of_capacity (sadd_error_iff (hs rs1) (hs rs2) c) id
  | sub rd rs1 rs2 =>
    exact faultsExactly_of_finishV (exec_sub rd rs1 rs2 s) fun c =>
      iff_raisesFault_of_capacity (ssub_error_iff (hs rs1) (hs rs2) c) id
  | inc rd din =>
    exact faultsExactly_of_finishV (exec_inc rd din s hwf) fun c =>
      iff_raisesFault_of_capacity (inc_error_iff (hs rd) hwf c) id
  | dec rd din =>
    exact faultsExactly_of_finishV (exec_dec rd din s hwf) fun c =>
      iff_raisesFault_of_capacity (dec_error_iff (hs rd) hwf c) id
  | neg rd rs1 => exact faultsExactly_of_finishV (exec_neg rd rs1 s) (ok_eq_error_iff_raisesFault _ id id)
  | mov rd rs1 => exact faultsExactly_of_finishV (exec_mov rd rs1 s) (ok_eq_error_iff_raisesFault _ id id)
  | rdsgn rs1 => exact faultsExactly_of_finishRES (exec_rdsgn rs1 s) (ok_eq_error_iff_raisesFault _ id id)
  | rdlen rs1 => exact faultsExactly_of_finishRES (exec_rdlen rs1 s) (ok_eq_error_iff_raisesFault _ id id)
  | rdlimb rs1 k => exact faultsExactly_of_finishRES (exec_rdlimb rs1 k s) (ok_eq_error_iff_raisesFault _ id id)

/-- An effect that is not the fault `c` does not newly record `c`. -/
theorem Effect.STATUS_of_ne_fault {e : Effect} {c : Cause} (h : e ≠ .fault c) {opc : BitVec 6} {s : State}
    (hc : (e.apply opc s).STATUS.cause = some c) : (e.apply opc s).STATUS = s.STATUS := by
  cases e with
  | setV rd x => rfl
  | setRES v => rfl
  | fault c' => exact absurd (congrArg Effect.fault (Option.some.inj hc)) h

section
variable {i : Instr} {s : State} (hwf : i.wf = true) (hs : s.RegsInv) {c : Cause}
include hwf hs

theorem exec_of_raisesFault (h : RaisesFault i s c) : exec i s = .next (takeFault c i.opcode s) := by
  obtain ⟨e, hexec, he⟩ := exec_faultsExactly hwf hs
  rwa [(he c).mpr h] at hexec

theorem exec_of_not_raisesFault (h : ¬ RaisesFault i s c) :
    ∃ t, exec i s = .next t ∧ (t.STATUS.cause = some c → t.STATUS = s.STATUS) := by
  obtain ⟨e, hexec, he⟩ := exec_faultsExactly hwf hs
  exact ⟨_, hexec, Effect.STATUS_of_ne_fault fun hc => h ((he c).mp hc)⟩

end

/-! ### The obligations of the three faults -/

/-- Settles O24: the four commands take the fault exactly under their conditions, and the others never. -/
theorem capacityOverflowExactly : Obligations.CapacityOverflowExactly := by
  intro i s hwf hs
  exact ⟨fun h => ⟨_, exec_of_raisesFault hwf hs (c := .capacityOverflow) h, takeFault_faultTaken .., rfl⟩,
    fun h => exec_of_not_raisesFault hwf hs (c := .capacityOverflow) h⟩

theorem opcode_of_overflowsNarrowing {i : Instr} {s : State} (h : overflowsNarrowing i s) :
    i.opcode = 0x02#6 ∨ i.opcode = 0x03#6 := by
  cases i with
  | toi32 => exact .inl rfl
  | toi64 => exact .inr rfl
  | create | cmp | add | sub | inc | dec | neg | mov | rdsgn | rdlen | rdlimb => exact h.elim

/-- Settles O25: the two conversions take the fault exactly under their conditions, and the others never. -/
theorem narrowingOverflowExactly : Obligations.NarrowingOverflowExactly := by
  intro i s hwf hs
  exact ⟨fun h => ⟨_, exec_of_raisesFault hwf hs (c := .narrowingOverflow) h, takeFault_faultTaken .., rfl,
    opcode_of_overflowsNarrowing h⟩, fun h => exec_of_not_raisesFault hwf hs (c := .narrowingOverflow) h⟩

theorem Effect.Sound.ne_preconditionViolation {e : Effect} (h : e.Sound) : e ≠ .fault .preconditionViolation := by
  rintro rfl
  exact h rfl

theorem Status.Inv.cause_ne_preconditionViolation {st : Status} (h : st.Inv) :
    st.cause ≠ some .preconditionViolation := by
  obtain ⟨hrun, hhalted⟩ := h
  cases hf : st.faulted with
  | false => simp [(hrun hf).1]
  | true => rcases hhalted hf with hc | hc | hc <;> simp [hc]

/-- Settles O26: the engine's two checks are comparisons of values, a command's effect is sound, and the invariant of
every run leaves the cause out. -/
theorem preconditionViolationIsUnreachable : Obligations.PreconditionViolationIsUnreachable := by
  refine ⟨fun a b ha hb => error_iff_of_value_or_smaller (magSub_spec ha hb),
    fun a v ha => error_iff_of_value_or_smaller (magDec_spec ha v), fun i s t hs h hc => ?_,
    fun events k t _ h => ?_⟩
  · obtain ⟨e, he, rfl⟩ := exec_sound_effect hs h
    exact Effect.STATUS_of_ne_fault he.ne_preconditionViolation hc
  · obtain ⟨-, hstatus⟩ :=
      run_induction (P := State.Inv) (fun _ _ => step_keeps_inv) k (launch events) t (launch_inv events) h
    exact hstatus.cause_ne_preconditionViolation

end Sys2Proof.Machine
end

section
/-!
Fault entry and the HALTED state (60_exceptions.md R246 to R248): a fault records the presented word's own opcode and
changes nothing else, and only reset leaves HALTED.
-/

namespace Sys2Proof.Machine

/-- The fault of an accepted command is recorded under the opcode of the word, whether the word decodes or not. -/
theorem acceptCommand_halts {cmd : CmdWord} {din : Din} {s t : State} (h : acceptCommand cmd din s = .next t)
    (hr : s.halted = false) (ht : t.halted = true) : ∃ c, t = takeFault c (cmd.extractLsb' 26 6) s := by
  rcases acceptCommand_cases cmd din s with ⟨i, hi, hexec⟩ | ⟨_, -, herr⟩
  · obtain ⟨-, -, -, hopc⟩ := encodeOfDecodeIsTheWord cmd din i hi
    rw [← hopc]
    exact exec_halts (hexec.symm.trans h) hr ht
  · exact ⟨.illegalCommand, Host.Outcome.next.inj (h.symm.trans herr)⟩

/-- Settles O20: the step is fault entry under the word's opcode, whose outputs are the fields of the status word. -/
theorem faultEntryIsPrecise : Obligations.FaultEntryIsPrecise := by
  intro s t cmd din rest hr hhost h ht
  rw [step_command hhost hr] at h
  obtain ⟨c, rfl⟩ := acceptCommand_halts h hr ht
  obtain ⟨hfaulted, hlow, hcause, hfopc, hhigh⟩ :=
    status_word_fields (takeFault c (cmd.extractLsb' 26 6) { s with host := rest }).STATUS
  exact ⟨c, fun _ => rfl, rfl, rfl, hfaulted, hlow, hcause, hfopc, hhigh, rfl, rfl, rfl⟩

/-- Settles O28: a successful end is in RUN, and the step out of HALTED is a reset, which gives a launch state. -/
theorem haltedIsNeverASuccessfulEnd : Obligations.HaltedIsNeverASuccessfulEnd := by
  refine ⟨fun events t hh ⟨_, _, hr⟩ => ?_, fun s t hh h => ?_⟩
  · cases hr.symm.trans hh
  · obtain ⟨-, hleave⟩ := faultRecordStaysUntilReset
    obtain ⟨rest, hhost⟩ := hleave s t hh h
    exact ⟨rest, hhost, Host.Outcome.next.inj (h.symm.trans (step_reset hhost))⟩

end Sys2Proof.Machine
end

section
/-!
Reset, the host's command sequence and operands in place (70_reset_and_hazards.md R270, R274, R279).
-/

namespace Sys2Proof.Machine

/-! ### The two ends of a run -/

/-- `EndsSuccessfully` from any state: all its events are taken, and the block is then in RUN (R279). -/
def EndsInRun (s t : State) : Prop :=
  run s.host.length s = .next t ∧ t.host = [] ∧ t.halted = false

/-- `EndsHalted` from any state: its event number `k` faults, and no step follows (R279). -/
def EndsInFault (s : State) (k : Nat) (t : State) : Prop :=
  k < s.host.length ∧ run (k + 1) s = .next t ∧ t.halted = true ∧ t.host = s.host.drop (k + 1) ∧
    ∀ j, k + 1 < j → run j s = .fault .halted

theorem endsSuccessfully_iff (events : List HostEvent) (t : State) :
    EndsSuccessfully events t ↔ EndsInRun (launch events) t := Iff.rfl

theorem endsHalted_iff (events : List HostEvent) (k : Nat) (t : State) :
    EndsHalted events k t ↔ EndsInFault (launch events) k t := Iff.rfl

section
variable {s t u : State} {e : HostEvent} {k : Nat} (hstep : step s = .next u) (hhost : s.host = e :: u.host)
include hstep hhost

theorem EndsInRun.of_step (h : EndsInRun u t) : EndsInRun s t := by
  obtain ⟨hrun, hend⟩ := h
  refine ⟨?_, hend⟩
  rw [hhost, List.length_cons, run_succ_next hstep, hrun]

theorem EndsInFault.of_step (h : EndsInFault u k t) : EndsInFault s (k + 1) t := by
  obtain ⟨hk, hrun, hhalted, hrest, hstuck⟩ := h
  rw [EndsInFault, hhost, run_succ_next hstep]
  refine ⟨Nat.succ_lt_succ hk, hrun, hhalted, hrest, fun j hj => ?_⟩
  obtain ⟨j, rfl⟩ : ∃ i, j = i + 1 := ⟨j - 1, by omega⟩
  rw [run_succ_next hstep]
  exact hstuck j (by omega)

/-- A step into HALTED is the end of the run, when no reset follows. -/
theorem endsInFault_of_step_halts (hhalted : u.halted = true) (hnr : ∀ e ∈ u.host, e ≠ .reset) :
    EndsInFault s 0 u := by
  rw [EndsInFault, hhost, run_succ_next hstep]
  refine ⟨Nat.zero_lt_succ _, rfl, hhalted, rfl, fun j hj => ?_⟩
  obtain ⟨j, rfl⟩ : ∃ i, j = i + 2 := ⟨j - 2, by omega⟩
  rw [run_succ_next hstep, run_halted hhalted hnr]

end

/-- By induction on the commands to come: the first one is taken, and its step ends the run in HALTED or leaves the
block in RUN with the others to come. -/
theorem endsInRun_or_endsInFault {events : List HostEvent} (hnr : ∀ e ∈ events, e ≠ .reset) :
    ∀ s : State, s.halted = false → s.host = events → (∃ t, EndsInRun s t) ∨ (∃ k t, EndsInFault s k t) := by
  induction events with
  | nil => exact fun s hr hhost => .inl ⟨s, by rw [hhost]; rfl, hhost, hr⟩
  | cons e rest ih =>
    intro s hr hhost
    rw [List.forall_mem_cons] at hnr
    obtain ⟨he, hrest⟩ := hnr
    cases e with
    | reset => exact absurd rfl he
    | command cmd din =>
      obtain ⟨hrun, -⟩ := haltedAcceptsNoCommand
      obtain ⟨-, haccepts⟩ := hrun s hr
      obtain ⟨u, hstep, rfl⟩ := haccepts cmd din rest hhost
      cases hu : u.halted with
      | true => exact .inr ⟨0, u, endsInFault_of_step_halts hstep hhost hu hrest⟩
      | false =>
        rcases ih hrest u hu rfl with ⟨t, ht⟩ | ⟨k, t, ht⟩
        · exact .inl ⟨t, ht.of_step hstep hhost⟩
        · exact .inr ⟨k + 1, t, ht.of_step hstep hhost⟩

/-- A fault at the last event leaves HALTED after it, and one before it leaves no run of all the events. -/
theorem EndsInRun.not_endsInFault {s t u : State} {k : Nat} (h : EndsInRun s t) : ¬ EndsInFault s k u := by
  rintro ⟨hk, hrunk, hhalted, -, hstuck⟩
  obtain ⟨hrun, -, hr⟩ := h
  rcases Nat.lt_or_eq_of_le (Nat.succ_le_of_lt hk) with hlt | hlast
  · cases hrun.symm.trans (hstuck _ hlt)
  · rw [← hlast] at hrun
    cases hrun.symm.trans hrunk
    cases hr.symm.trans hhalted

/-- Settles O27: a launch state is in RUN, so its commands end the run in one of the two ways, which exclude each
other. -/
theorem runEndsInRunOrAtItsFirstFault : Obligations.RunEndsInRunOrAtItsFirstFault := by
  intro events hnr
  simp only [endsSuccessfully_iff, endsHalted_iff]
  refine ⟨endsInRun_or_endsInFault hnr (launch events) rfl rfl, ?_⟩
  rintro ⟨⟨t, ht⟩, k, u, hu⟩
  exact ht.not_endsInFault hu

/-! ### Operands in place -/

/-- Settles O44: ADD and SUB form their results from the old registers, and the difference of a record and itself is
the record of 0, which is the canonical zero. -/
theorem operandsAreReadBeforeTheWrite : Obligations.OperandsAreReadBeforeTheWrite := by
  intro r q s hr hq
  refine ⟨fun hfits => ?_, ?_, fun hfits => ?_⟩
  · rw [two_mul] at hfits ⊢
    obtain ⟨t, h, -, hval, hframe⟩ := addGivesTheSum r r r s hr hr hfits
    exact ⟨t, h, hval, hframe⟩
  · have hzero : (s.readV r).sval - (s.readV r).sval = Value.zero.sval := by rw [sub_self, sval_zero]
    obtain ⟨t, h, hinv, hval, hframe⟩ := subGivesTheDifference r r r s hr hr (by rw [hzero]; decide)
    exact ⟨t, h, hinv.eq_of_sval_eq Value.zero_inv (hval.trans hzero), hframe⟩
  · obtain ⟨t, h, -, hval, hframe⟩ := subGivesTheDifference r q r s hq hr hfits
    exact ⟨t, h, hval, hframe⟩

/-! ### Reset -/

/-- Reset keeps nothing of the state it starts from but the events behind it. -/
theorem step_reset_eq_launch {s : State} {rest : List HostEvent} (h : s.host = .reset :: rest) :
    step s = .next (launch rest) := step_reset h

/-- Settles O19: reset gives a launch state, which has the reset values of R49 whatever events follow. -/
theorem resetWorksFromEveryState : Obligations.ResetWorksFromEveryState := by
  refine ⟨fun s rest h => ?_, fun s s' rest h h' => ?_, fun s => step_halted⟩
  · obtain ⟨-, hRES, hstatus, -, -, -, hrun, hready⟩ := resetLeavesTheListedValues
    exact ⟨launch rest, step_reset_eq_launch h, readV_reset, hRES, hstatus, hrun, hready, rfl⟩
  · rw [step_reset_eq_launch h, step_reset_eq_launch h']

end Sys2Proof.Machine
end
